-- ==== Sys2Proof/Word.lean ====
section
/-! DEFINITION. The port word and the level of one line of a port.
`uint(v)` of the spec is `BitVec.toNat v`, `sint(v)` is `BitVec.toInt v`, `bits_32(n)` is `BitVec.ofInt 32 n` or
`BitVec.ofNat 32 n`, `a ++ b` is `a ++ b`, `zext_N(v)` is `BitVec.setWidth N v` and `v[i]` is `BitVec.getLsbD v i`
(R10, R11, R12). -/

namespace Sys2Proof

/-- The 32-bit word of the ports `uf[31:0]` and `result[31:0]` (R8, R21, R22); bit 0 is the least significant (R10). -/
abbrev Word := BitVec 32

/-- The level of one line of the input port. The block gives a meaning to the two values `low` and `high` alone; the
other three are the non-binary inputs that D7 names, refused with no meaning given (DESIGN CHOICE for the names, log entry 4). -/
inductive Level where
  | low
  | high
  | unknown
  | highImpedance
  | metastable
  deriving DecidableEq, Repr

end Sys2Proof
end

