-- ==== Sys2Proof/Config.lean ====
section
/-! DEFINITION. What the spec leaves to the implementation or to the environment: the propagation delay `T_PD`, the
value of `result` before it settles, and the reset content of a register in a registered wrapper. Each is a constant
with no body, so that no proof can lean on a value of it. -/

namespace Sys2Proof.Config

/-- `T_PD`, the maximum delay from a stable `uf` to a settled `result` (R155, D8: an OPEN parameter). The unit is the
environment's own. UNVERIFIED value, log entry 2. -/
opaque tPd : Nat

/-- The value of `result` that an environment sees when it samples before `T_PD` has passed: "any 32-bit value"
(R155, D8). Applied to the counter `State.draws`, so that two samples need not agree. DESIGN CHOICE, log entry 3. -/
opaque unsettledResult : Nat → Word

/-- `RESET_RESULT`, the content of a registered wrapper's register until it is first loaded: "any 32-bit value"
(R158, D11: an OPEN parameter). UNVERIFIED value, log entry 8. -/
opaque resetResult : Word

end Sys2Proof.Config
end

