-- ==== Sys2Proof/Syntax.lean ====
section
/-! DEFINITION. The one operation of the block and the classes its inputs fall into. -/

namespace Sys2Proof

/-- The operation map has one entry, FTOI, selected by every value of `uf` (R70). Its operand is the input word, held
as the three fields of its one format (R60, R82): sign (bit 31), biased exponent (bits 30:23) and significand bits
(bits 22:0). -/
inductive Instr where
  | ftoi (sign : BitVec 1) (bexp : BitVec 8) (frac : BitVec 23)
  deriving DecidableEq, Repr

/-- The input classes of R63, under the spec's own names. -/
inductive InputClass where
  | pzero
  | denorm
  | special
  | small
  | inrangeRight
  | inrangeLeft
  | ovf
  deriving DecidableEq, Repr

end Sys2Proof
end

