-- ==== Sys2Proof/WellFormed.lean ====
section
/-! DEFINITION. What may be presented to the block. No input word is illegal (R65), so an instruction has no check of
its own beyond the widths its type already fixes; the environment has one duty, to drive all 32 lines of `uf` with
defined two-valued levels (R61, R152, D7), and that is checked here. -/

namespace Sys2Proof

/-- Every field value is legal: "No input is illegal, reserved or a hint" (R65). -/
def Instr.wellFormed : Instr → Bool
  | .ftoi _ _ _ => true

/-- A line carries one of the two values the block is defined on (D7). -/
def Level.isBinary : Level → Bool
  | .low => true
  | .high => true
  | .unknown => false
  | .highImpedance => false
  | .metastable => false

/-- The environment's duty towards the port: exactly 32 lines (R61), each of them two-valued (R152, D7). -/
def wellDriven (lines : List Level) : Bool :=
  lines.length == 32 && lines.all Level.isBinary

end Sys2Proof
end

