-- ==== Sys2Proof/Decode.lean ====
section
/-! DEFINITION. From the lines of the input port to the instruction, and back. The port is a parallel word: there is
no byte order (R41, D4), and a word's lines are listed from bit 0 up to bit 31 (R10; the list is a DESIGN CHOICE, log entry 11). Decoding is total on any list of
lines and rejects by name what is not one two-valued 32-bit word. -/

namespace Sys2Proof

/-- Why a list of lines is not an input word. -/
inductive DecodeError where
  /-- There are not exactly 32 lines (R61). -/
  | wrongWidth (lines : Nat)
  /-- Some line is neither 0 nor 1 (D7). -/
  | nonBinary
  deriving DecidableEq, Repr

/-- `s = uf[31]` (R60, R82). -/
def signField (uf : Word) : BitVec 1 := uf.extractLsb' 31 1

/-- `bexp = uf[30:23]` (R60, R82). -/
def bexpField (uf : Word) : BitVec 8 := uf.extractLsb' 23 8

/-- `frac = uf[22:0]` (R60, R82). -/
def fracField (uf : Word) : BitVec 23 := uf.extractLsb' 0 23

/-- The word made of the three fields, the sign in bit 31 and the significand bits lowest (the layout of R60). -/
def packFields (sign : BitVec 1) (bexp : BitVec 8) (frac : BitVec 23) : Word := sign ++ bexp ++ frac

/-- The number a two-valued line stands for. -/
def Level.bit? : Level → Option Nat
  | .low => some 0
  | .high => some 1
  | .unknown => none
  | .highImpedance => none
  | .metastable => none

/-- The unsigned number on a list of lines, bit 0 first (R10); none where a line is not two-valued. -/
def numberOfLines : List Level → Option Nat
  | [] => some 0
  | l :: rest =>
    match l.bit?, numberOfLines rest with
    | some b, some n => some (b + 2 * n)
    | _, _ => none

/-- The `n` lowest bits of a number as lines, bit 0 first (R10). -/
def linesOfNat : Nat → Nat → List Level
  | 0, _ => []
  | n + 1, w => (if w % 2 = 1 then .high else .low) :: linesOfNat n (w / 2)

/-- The 32 lines that carry a word. -/
def linesOfWord (w : Word) : List Level := linesOfNat 32 w.toNat

/-- The instruction a word selects: always FTOI, with the word's own fields (R70). -/
def decodeWord (w : Word) : Instr := .ftoi (signField w) (bexpField w) (fracField w)

/-- The decoder: 32 two-valued lines give an instruction, anything else is rejected by name (R61, R65, D7). -/
def decode (lines : List Level) : Except DecodeError Instr :=
  if lines.length = 32 then
    match numberOfLines lines with
    | some n => .ok (decodeWord (BitVec.ofNat 32 n))
    | none => .error .nonBinary
  else .error (.wrongWidth lines.length)

/-- The encoder, from the layout of R60: an instruction's encoding is the word presented on `uf` (R71). -/
def encode : Instr → Word
  | .ftoi sign bexp frac => packFields sign bexp frac

/-- The lines the environment drives to present an instruction. -/
def encodeLines (i : Instr) : List Level := linesOfWord (encode i)

/-- The word that the host's pair (`nbits`, `w`) stands for: the low `nbits` bits of `w`, every higher bit 0.
The spec has no width but 32 (R61): a narrower pair is zero-extended and a wider one cut to the low 32 bits (DESIGN
CHOICE, log entry 13). -/
def tableWord (nbits w : Nat) : Word := BitVec.ofNat 32 (w % 2 ^ nbits)

/-- The host's question: the instruction the decoder reads from a table word. More than 32 bits is no input word
(R61), and fewer are zero-extended (DESIGN CHOICE, log entry 13). -/
def decodeTableWord (nbits w : Nat) : Option Instr :=
  if nbits ≤ 32 then
    match decode (linesOfWord (tableWord nbits w)) with
    | .ok i => some i
    | .error _ => none
  else none

end Sys2Proof
end

