-- ==== Sys2Proof/Machine/Operands.lean ====
section
/-! DEFINITION. The operands of the datapath, made from the fields of the input word (R62). There is one operand form,
the whole word on `uf` (R80). -/

namespace Sys2Proof.Machine

/-- The pattern `0x80000000` of every input that is not representable (R8, R13). -/
def sentinel : Word := 0x80000000#32

/-- The unbiased exponent `e = uint(bexp) − 127`, an exact signed integer (R86). -/
def unbiasedExponent (bexp : BitVec 8) : Int := (bexp.toNat : Int) - 127

/-- The mantissa restorer: `m = 1 ++ frac`, 24 bits (R87). -/
def mantissa (frac : BitVec 23) : BitVec 24 := 1#1 ++ frac

end Sys2Proof.Machine
end

