-- ==== Sys2Proof/Machine/Flags.lean ====
section
/-! DEFINITION. The condition signals of the block. It has no status flag, no condition code and no IEEE-754
exception flag (R27, R132); what it has are the combinational detectors of the special-case detector and the final
guard (R24), and the classes they sort the inputs into (R63). -/

namespace Sys2Proof.Machine

/-- Zero detector: a full 32-bit equality test, which negative zero does not meet (R83). -/
def isPzero (uf : Word) : Bool := uf == 0x00000000#32

/-- Special-value detector: infinity or NaN (R84). -/
def isSpecial (bexp : BitVec 8) : Bool := bexp.toNat == 255

/-- Denormal detector (R85). -/
def isDenorm (bexp : BitVec 8) : Bool := bexp.toNat == 0

/-- Small-magnitude detector (R88). -/
def isSmall (e : Int) : Bool := decide (e < 0)

/-- Overflow detector (R89). -/
def isOvf (e : Int) : Bool := decide (31 ≤ e)

/-- The final guard: it tests bit 31 on the positive path only (R95, C2). -/
def guardFires (sign : BitVec 1) (val : Word) : Bool := sign == 0#1 && val.getLsbD 31

/-- The class of an input, by the comparisons of R64 on `bexp` (R63). -/
def classify (uf : Word) : InputClass :=
  let bexp := (bexpField uf).toNat
  if isPzero uf then .pzero
  else if bexp = 0 then .denorm
  else if bexp = 255 then .special
  else if bexp < 127 then .small
  else if bexp < 151 then .inrangeRight
  else if bexp < 158 then .inrangeLeft
  else .ovf

end Sys2Proof.Machine
end

