-- ==== Sys2Proof/Machine/State.lean ====
section
/-! DEFINITION. What the machine and its environment hold between two evaluations. The block itself stores nothing
(R20, R25 to R31): the fields here are the two ports it has (R21, R22), how long `uf` has been stable (R155), the
environment's stimulus (R71, D5), and the model's own counter of free values. -/

namespace Sys2Proof.Machine

/-- How long the environment holds a word on `uf` before it samples `result` (R43, R152, R155, D8). -/
inductive Hold where
  /-- Held until `result` has settled: the environment does its duty (R152). -/
  | untilSettled
  /-- Sampled at once, while `uf` is still changing to the word where it is another than the one already there. -/
  | whileChanging
  /-- Held stable this long, in the unit of `Config.tPd`, and then sampled. -/
  | sampledAfter (delay : Nat)
  deriving DecidableEq, Repr

/-- How long the word now on `uf` has been stable, which decides whether `result` is defined (R155). -/
inductive Stability where
  /-- For the propagation delay `T_PD` or longer: `result` has settled (R150). -/
  | settled
  /-- For this long and not yet settled; 0 while `uf` is changing. Times add up (DEDUCED, log entry 12). -/
  | stableFor (elapsed : Nat)
  deriving DecidableEq, Repr

/-- One line of a program in the sense of D5 and R71: what the environment drives on the 32 lines of `uf`, bit 0
first, and how long it holds them. -/
structure Stimulus where
  lines : List Level
  hold : Hold
  deriving DecidableEq, Repr

/-- Everything there is to hold. No field is storage inside the block (R20). -/
structure State where
  /-- The input port: the two-valued word now driven on it (R21, D7). -/
  uf : Word
  /-- The output port, as last sampled (R22); with `uf` the observation of D14. -/
  result : Word
  /-- How long `uf` has been stable: whether `result` is defined (R155). -/
  stability : Stability
  /-- The environment's remaining stimulus, the next line first (R71, D5; DESIGN CHOICE, log entry 5). -/
  stimulus : List Stimulus
  /-- The model's own: how many free values `Config.unsettledResult` has given so far (DESIGN CHOICE, log entry 3).
  No statement rests on its value. -/
  draws : Nat
  deriving DecidableEq, Repr

/-- There is no fault: "FTOI raises no synchronous exception for any input. It does not trap, does not signal and does
not stop" (R130). The type has no constructor, so no step can answer one. -/
inductive Fault where
  deriving DecidableEq, Repr

/-- Why a step gives no meaning. -/
inductive Refusal where
  /-- Raised by an arm of `exec` whose instruction has no meaning yet; no arm of this model is one. Safe. -/
  | notModelled (mnemonic : String)
  /-- Raised by `step` when the environment drives some line of `uf` with neither 0 nor 1: such inputs are refused,
  with no meaning given (D7). Safe: nothing is claimed of them. -/
  | nonBinaryInput
  /-- Raised by `step` when a stimulus does not have exactly 32 lines, which is no input of the block (R61;
  the name is a DESIGN CHOICE, log entry 4). Safe: nothing is claimed of it. -/
  | wrongWidth (lines : Nat)
  deriving DecidableEq, Repr

/-- Right after reset or power-up of the surrounding system. The block has no reset value (R32, R151). The word then on
`uf` is the environment's: 0 is a DESIGN CHOICE (log entry 1). `result` is then FTOI of that word, as R32 and R150
say, here 0 by R83. No program is loaded. -/
def State.reset : State where
  uf := 0x00000000#32
  result := 0x00000000#32
  stability := .settled
  stimulus := []
  draws := 0

end Sys2Proof.Machine
end

