-- ==== Sys2Proof/Machine/Ops.lean ====
section
/-! DEFINITION. The shared operations: the sub-blocks after the decoder and the detectors (barrel shifter,
two's-complement sign applicator, saturation mux), the operations on the ports, and taking the next stimulus.
The block has no register file, no memory and no program counter (R25, R26, R40), so there is no operation on any.
TAKING AN EXCEPTION AND RETURNING FROM ONE: there is no exception, no trap entry and no trap return (R130, R135,
R136), so there is no such operation; a non-representable input is carried in-band, by the sentinel that the
saturation mux selects (R131). -/

namespace Sys2Proof.Machine

/-- Shift direction: left where `e > 23` (R90). -/
def shiftsLeft (e : Int) : Bool := decide (23 < e)

/-- Shift amount: `e − 23` to the left, `23 − e` to the right (R90). It is used for `e` in 0..30 alone, where it is at
most 23 (R100); elsewhere it is unobservable (DESIGN CHOICE, log entry 6). -/
def shiftAmount (e : Int) : Nat := if shiftsLeft e then (e - 23).toNat else (23 - e).toNat

/-- The barrel shifter (R91, R92). Where its output is not used it gives the spec's reference value 0 (R93, D13). -/
def barrelShift (m : BitVec 24) (e : Int) : Word :=
  if 0 ≤ e ∧ e ≤ 30 then
    if shiftsLeft e then m.setWidth 32 <<< shiftAmount e else m.setWidth 32 >>> shiftAmount e
  else 0x00000000#32

/-- The sign applicator: two's-complement negation of the magnitude where the sign is set, modulo 2^32 (R94). -/
def applySign (sign : BitVec 1) (mag : Word) : Word := if sign = 1#1 then ~~~mag + 1#32 else mag

/-- The saturation mux: the first true condition wins, in the order of R96. -/
def saturationMux (pzero special denorm small ovf guarded : Bool) (val : Word) : Word :=
  if pzero then 0x00000000#32
  else if special then sentinel
  else if denorm then 0x00000000#32
  else if small then 0x00000000#32
  else if ovf then sentinel
  else if guarded then sentinel
  else val

/-- How long a word that is being presented has been stable already: as long as `uf` has, where it is the word on `uf`,
since `uf` does not change then; else not at all (R155; DEDUCED, log entry 12). -/
def State.stabilityOf (s : State) (w : Word) : Stability := if w = s.uf then s.stability else .stableFor 0

/-- How long the word has been stable when `result` is sampled: `T_PD` at least where the environment waits, and else as
long as before and the delay together; a settled output of a stable word stays settled (R43, R150, R155). -/
def Hold.stabilityAfter (hold : Hold) (before : Stability) : Stability :=
  match hold with
  | .untilSettled => .settled
  | .whileChanging => before
  | .sampledAfter delay =>
    match before with
    | .settled => .settled
    | .stableFor elapsed =>
      if Config.tPd ≤ elapsed + delay then .settled else .stableFor (elapsed + delay)

/-- The word `uf` is on the input port and has settled, and `result` is what the block drives (R150, R156). -/
def State.settleOn (s : State) (uf result : Word) : State :=
  { s with uf := uf, result := result, stability := .settled }

/-- The word `uf` is on the input port, stable for `elapsed` so far, and `result` is sampled before it has settled: any
32-bit value (R155, D8). -/
def State.sampleEarly (s : State) (uf : Word) (elapsed : Nat) : State :=
  { s with
    uf := uf, result := Config.unsettledResult s.draws, stability := .stableFor elapsed, draws := s.draws + 1 }

/-- What is on the port for the next evaluation, and the state with that line taken off the stimulus. After a
program's last line the environment holds the word that is there (D14, R150; DESIGN CHOICE, log entry 5). -/
def fetch (s : State) : Stimulus × State :=
  match s.stimulus with
  | [] => (⟨linesOfWord s.uf, .untilSettled⟩, s)
  | line :: rest => (line, { s with stimulus := rest })

/-- The refusal for lines that are no input word. -/
def refusalOf : DecodeError → Refusal
  | .wrongWidth n => .wrongWidth n
  | .nonBinary => .nonBinaryInput

/-- The environment places one more line before its stimulus: a table word, held until `result` has settled. -/
def State.present (s : State) (w : Word) : State :=
  { s with stimulus := ⟨linesOfWord w, .untilSettled⟩ :: s.stimulus }

end Sys2Proof.Machine
end

