-- ==== Sys2Proof/Machine/Ftoi.lean ====
section
/-! DEFINITION. The one operation: the port function of R80 in the order of its pseudocode, the reference structure of
five sub-blocks (R3, R96), and the meaning of the instruction FTOI. -/

namespace Sys2Proof.Machine

/-- The port function, in the order of R80's pseudocode; the first matching rule wins (R81). -/
def ftoi (uf : Word) : Word :=
  let sign := signField uf
  let bexp := bexpField uf
  let frac := fracField uf
  if isPzero uf then 0x00000000#32
  else if isSpecial bexp then sentinel
  else if isDenorm bexp then 0x00000000#32
  else
    let e := unbiasedExponent bexp
    let m := mantissa frac
    if isSmall e then 0x00000000#32
    else if isOvf e then sentinel
    else
      let val := applySign sign (barrelShift m e)
      if guardFires sign val then sentinel else val

/-- The reference structure: every sub-block evaluates at once and the saturation mux selects (R3, R81, R96, D9). -/
def datapath (uf : Word) : Word :=
  let e := unbiasedExponent (bexpField uf)
  let val := applySign (signField uf) (barrelShift (mantissa (fracField uf)) e)
  saturationMux (isPzero uf) (isSpecial (bexpField uf)) (isDenorm (bexpField uf)) (isSmall e) (isOvf e)
    (guardFires (signField uf) val) val

/-- FTOI (R80): the word of the instruction is on `uf`, and `result` is the port function of it. Nothing else changes:
no flag, no memory, no mode (R27, R109). -/
def execFtoi (sign : BitVec 1) (bexp : BitVec 8) (frac : BitVec 23) (s : State) :
    Host.Outcome State Fault Refusal :=
  .next (s.settleOn (packFields sign bexp frac) (ftoi (packFields sign bexp frac)))

end Sys2Proof.Machine
end

