-- ==== Sys2Proof/Machine/Dispatch.lean ====
section
/-! DEFINITION. One arm per constructor of Instr. -/

namespace Sys2Proof.Machine

def exec (i : Instr) (s : State) : Host.Outcome State Fault Refusal :=
  match i with
  | .ftoi sign bexp frac => Sys2Proof.Machine.execFtoi sign bexp frac s

end Sys2Proof.Machine
end

