-- ==== Sys2Proof/Machine/Step.lean ====
section
/-! DEFINITION. One evaluation of the block: the environment presents its next word, the word is decoded, and FTOI runs
on it as one instantaneous step (R156); a sample taken before `uf` has been stable for `T_PD` gives any
value instead (R155). -/

namespace Sys2Proof.Machine

/-- One step. The word now on the port is the next stimulus, or the one that is held there when there is none. -/
def step (s : State) : Host.Outcome State Fault Refusal :=
  match decode (fetch s).1.lines with
  | .error e => .refused (refusalOf e)
  | .ok i =>
    match (fetch s).1.hold.stabilityAfter (s.stabilityOf (encode i)) with
    | .settled => exec i (fetch s).2
    | .stableFor elapsed => .next ((fetch s).2.sampleEarly (encode i) elapsed)

/-- The instruction of a table word, placed as the environment's next stimulus, so that the very next step runs it.
The block loads no program itself: this stands for the environment that presents one (R26, D5; log entry 5).
A pair wider than 32 bits is cut to the low 32, the lines of the port (DESIGN CHOICE, log entry 13). -/
def State.withFetchWord (s : State) (nbits w : Nat) : State := s.present (tableWord nbits w)

end Sys2Proof.Machine
end

