-- ==== Sys2Proof/Machine/Instances.lean ====
section
/-! DEFINITION. Several FTOI32 instances side by side (R51, R140): each has its own ports and its own environment, and
they share nothing. The bank is a list that steps one instance at a time (DESIGN CHOICE, log entry 9). -/

namespace Sys2Proof.Machine

/-- One step of the instance at place `k`; every other instance is left as it is. None where there is no such instance
or its step gives no next state. -/
def stepInstance (k : Nat) (bank : List State) : Option (List State) :=
  match bank[k]? with
  | none => none
  | some s =>
    match step s with
    | .next t => some (bank.set k t)
    | .fault _ => none
    | .refused _ => none

end Sys2Proof.Machine
end

