-- ==== Sys2Proof/Machine/Wrapper.lean ====
section
/-! DEFINITION. The registered wrapper of R158 and D11, a different block beside this one and no part of `core`: it
places a register on `uf` or on `result`, and wraps the port function of R80 in it (DESIGN CHOICE for the shape,
log entry 8). -/

namespace Sys2Proof.Machine

/-- Where the wrapper places its register (R158). -/
inductive RegisterPlace where
  | onInput
  | onResult
  deriving DecidableEq, Repr

/-- A wrapper and the content of its register. -/
structure Wrapped where
  place : RegisterPlace
  content : Word
  deriving DecidableEq, Repr

/-- Until it is first loaded, the register holds the open parameter `RESET_RESULT` (R158, D11). -/
def Wrapped.afterReset (place : RegisterPlace) : Wrapped := ⟨place, Config.resetResult⟩

/-- One clock edge with `uf` at the wrapper's input: the register is loaded. -/
def Wrapped.clock (w : Wrapped) (uf : Word) : Wrapped :=
  match w.place with
  | .onInput => { w with content := uf }
  | .onResult => { w with content := ftoi uf }

/-- The wrapper's output. -/
def Wrapped.output (w : Wrapped) : Word :=
  match w.place with
  | .onInput => ftoi w.content
  | .onResult => w.content

end Sys2Proof.Machine
end

