-- ==== Sys2Proof/Safety.lean ====
section
/-! DEFINITION. The terms the statements use: the real value of an input and the contract on the output, written
without any of the block's own circuits; what a consistent state and a dutiful environment are; and small predicates
that say what an evaluation gives. -/

namespace Sys2Proof.Safety

open Sys2Proof.Machine

/-- The real value of a finite binary32 pattern, as R101 writes it (its GK1: the spec took the formula from general
knowledge; log entry 7). Meaningless where `bexp = 255`. -/
def realValue (uf : Word) : ℚ :=
  let sign : ℚ := (-1) ^ (uf.toNat / 2 ^ 31)
  let bexp : ℕ := uf.toNat / 2 ^ 23 % 2 ^ 8
  let frac : ℕ := uf.toNat % 2 ^ 23
  if bexp = 0 then sign * frac * 2 ^ (-149 : ℤ)
  else sign * (frac + 2 ^ 23 : ℕ) * 2 ^ ((bexp : ℤ) - 127 - 23)

/-- The pattern encodes neither infinity nor NaN: the source's mask test of R84. -/
def IsFinite (uf : Word) : Prop := uf &&& 0x7F800000#32 ≠ 0x7F800000#32

/-- Truncation toward zero: any fractional part is discarded (R13, R111). -/
def truncate (v : ℚ) : ℤ := if 0 ≤ v then ⌊v⌋ else ⌈v⌉

/-- What the contract of R101 and R102 asks of the output for an input: the truncated real value where its magnitude is
below 2^31, the sentinel pattern for every other input. -/
def MeetsContract (uf result : Word) : Prop :=
  (IsFinite uf ∧ |truncate (realValue uf)| < 2 ^ 31 → result.toInt = truncate (realValue uf)) ∧
  (¬(IsFinite uf ∧ |truncate (realValue uf)| < 2 ^ 31) → result = 0x80000000#32)

/-- A settled output is the port function of the input then present (R150). -/
def Consistent (s : State) : Prop := s.stability = .settled → s.result = ftoi s.uf

/-- A settled output meets the contract for the input then present. -/
def HonoursContract (s : State) : Prop := s.stability = .settled → MeetsContract s.uf s.result

/-- A word that has not settled has been stable for less than `T_PD`, or has only just been presented (R155). -/
def UnsettledIsRecent (s : State) : Prop := ∀ elapsed, s.stability = .stableFor elapsed → elapsed = 0 ∨ elapsed < Config.tPd

/-- The environment does its duty for every line it still has to present (R152). -/
def Dutiful (s : State) : Prop := ∀ line ∈ s.stimulus, wellDriven line.lines = true

/-- A safe run of `k` steps: it ends in a next state, with neither a fault nor a refusal on the way. -/
def RunsFor (k : Nat) (s : State) : Prop := ∃ t, Sys2Proof.core.run k s = .next t

/-- Evaluating the word `uf` answers a next state with `result` on the output port, from every state: the observation
pair of D14 is (`uf`, `result`), settled, and the rest of the state is as before. -/
def Gives (uf result : Word) : Prop :=
  ∀ s : State, exec (decodeWord uf) s = .next { s with uf := uf, result := result, stability := .settled }

/-- The first true condition of a list of (condition, output) pairs selects the output; `other` where none is true. -/
def firstMatch (other : Word) : List (Bool × Word) → Word
  | [] => other
  | (condition, output) :: rest => if condition then output else firstMatch other rest

/-- The magnitude that leaves the barrel shifter for an input, and the value that leaves the sign applicator. -/
def magOf (uf : Word) : Word := barrelShift (mantissa (fracField uf)) (unbiasedExponent (bexpField uf))

/-- See `magOf`. -/
def valOf (uf : Word) : Word := applySign (signField uf) (magOf uf)

/-- The unbiased exponent of an input (R86). -/
def exponentOf (uf : Word) : Int := unbiasedExponent (bexpField uf)

/-- The outputs of the special-case detector with what each selects, in the order of R81 and R96. -/
def detectors (uf : Word) : List (Bool × Word) :=
  [(isPzero uf, 0x00000000#32), (isSpecial (bexpField uf), 0x80000000#32), (isDenorm (bexpField uf), 0x00000000#32),
   (isSmall (exponentOf uf), 0x00000000#32), (isOvf (exponentOf uf), 0x80000000#32)]

/-- The range of patterns of each class and its output, the rows of R63's table; the ranges are on the word with its
sign bit cleared, but for PZERO, which is one word. -/
def InClassRange (uf : Word) : InputClass → Prop
  | .pzero => uf = 0x00000000#32
  | .denorm => uf ≠ 0x00000000#32 ∧ uf.toNat % 2 ^ 31 ≤ 0x007FFFFF
  | .special => 0x7F800000 ≤ uf.toNat % 2 ^ 31
  | .small => 0x00800000 ≤ uf.toNat % 2 ^ 31 ∧ uf.toNat % 2 ^ 31 ≤ 0x3F7FFFFF
  | .inrangeRight => 0x3F800000 ≤ uf.toNat % 2 ^ 31 ∧ uf.toNat % 2 ^ 31 ≤ 0x4B7FFFFF
  | .inrangeLeft => 0x4B800000 ≤ uf.toNat % 2 ^ 31 ∧ uf.toNat % 2 ^ 31 ≤ 0x4EFFFFFF
  | .ovf => 0x4F000000 ≤ uf.toNat % 2 ^ 31 ∧ uf.toNat % 2 ^ 31 ≤ 0x7F7FFFFF

/-- The output column of R63's table. -/
def classOutput (uf : Word) : InputClass → Word
  | .pzero => 0x00000000#32
  | .denorm => 0x00000000#32
  | .special => 0x80000000#32
  | .small => 0x00000000#32
  | .inrangeRight => valOf uf
  | .inrangeLeft => valOf uf
  | .ovf => 0x80000000#32

end Sys2Proof.Safety
end

