-- ==== Sys2Proof/Certificates/Slice0/Obligations.lean ====
section
/-! DEFINITION. The statements for the provers. Each docstring names the rule of spec/ it formalises; where the spec
marks the rule as its own derivation or decision, or the statement rests on an entry of the assumption log, the
docstring says so. `Gives uf r` (Safety.lean) says that FTOI of `uf` answers, from EVERY state, the next state that
differs from it in the two ports and in its stability alone, with `r` on `result` and the output settled. -/

open Sys2Proof Sys2Proof.Machine Sys2Proof.Safety

/-! ## The machine: evaluation, ports, environment -/

/-- R80: FTOI runs from every state on every operand. Its next state holds the input word on `uf` and the value of
R80's pseudocode on `result`, and differs from the old state in nothing else but that the output has settled. -/
def Obligations.ExecFtoiFollowsAlgorithm : Prop :=
  ∀ (s : BitVec 1) (bexp : BitVec 8) (frac : BitVec 23) (st : State),
    let uf : Word := s ++ bexp ++ frac
    let e : Int := (bexp.toNat : Int) - 127
    let m : BitVec 24 := 1#1 ++ frac
    let mag : Word := if e > 23 then m.setWidth 32 <<< (e - 23).toNat else m.setWidth 32 >>> (23 - e).toNat
    let val : Word := if s = 1#1 then ~~~mag + 1#32 else mag
    let result : Word :=
      if uf = 0x00000000#32 then 0x00000000#32
      else if bexp.toNat = 255 then 0x80000000#32
      else if bexp.toNat = 0 then 0x00000000#32
      else if e < 0 then 0x00000000#32
      else if e ≥ 31 then 0x80000000#32
      else if s = 0#1 ∧ val.getLsbD 31 = true then 0x80000000#32
      else val
    exec (.ftoi s bexp frac) st = .next { st with uf := uf, result := result, stability := .settled }

/-- A step decodes the word on the port and runs it: the next stimulus where there is one and its output has settled
when it is sampled, else the word that is held on `uf` (R26, R150; the stimulus list is D5 and log entry 5, how
stable time counts log entry 12). -/
def Obligations.StepRunsDecodedInstruction : Prop :=
  (∀ (s : State) (line : Stimulus) (rest : List Stimulus) (i : Instr),
    s.stimulus = line :: rest → decode line.lines = .ok i →
      line.hold.stabilityAfter (s.stabilityOf (encode i)) = .settled → step s = exec i { s with stimulus := rest }) ∧
  (∀ s : State, s.stimulus = [] → step s = exec (decodeWord s.uf) s)

/-- A table word placed as the next stimulus is what the decoder reads and what the very next step runs, from every
state (the model's own interface, log entry 5). -/
def Obligations.FetchWordRunsTableWord : Prop :=
  ∀ (s : State) (w : Nat), w < 2 ^ 32 →
    decodeTableWord 32 w = some (decodeWord (BitVec.ofNat 32 w)) ∧
    step (s.withFetchWord 32 w) = exec (decodeWord (BitVec.ofNat 32 w)) s

/-- R65, R130: no input word is illegal, and none traps, signals or stops. From every state, every word decodes and runs
to a next state with a defined output, FTOI of the word. -/
def Obligations.EveryInputWordCompletes : Prop :=
  ∀ (uf : Word) (s : State), ∃ i, decode (linesOfWord uf) = .ok i ∧
    exec i s = .next { s with uf := uf, result := ftoi uf, stability := .settled }

/-- The same of a step: whatever word stands next in the stimulus and is held until the output settles, the step answers
a next state, and the line is used up (the stimulus list is log entry 5). -/
def Obligations.PresentedWordCompletes : Prop :=
  ∀ (s : State) (uf : Word) (rest : List Stimulus),
    s.stimulus = ⟨linesOfWord uf, .untilSettled⟩ :: rest →
      step s = .next { s with uf := uf, result := ftoi uf, stability := .settled, stimulus := rest }

/-- R109: the operation has no side effect, reads nothing but `uf`, and gives the same `result` for the same `uf` every
time. From any two states it completes with the same word on each port and leaves everything else as it was. -/
def Obligations.EvaluationReadsOnlyInput : Prop :=
  ∀ (i : Instr) (s t : State), ∃ s' t', exec i s = .next s' ∧ exec i t = .next t' ∧
    s'.result = t'.result ∧ s'.uf = encode i ∧ t'.uf = encode i ∧ s'.stability = .settled ∧ t'.stability = .settled ∧
    s'.stimulus = s.stimulus ∧ s'.draws = s.draws ∧ t'.stimulus = t.stimulus ∧ t'.draws = t.draws

/-- The spec's derivation in R31 and R153: two steps that find the same line on the port, held until the output settles,
show the same outcome, whatever came before either; and however long each is held, two settled outputs of the same
lines agree (the stimulus list is log entry 5). -/
def Obligations.StepsIgnoreHistory : Prop :=
  (∀ (s t : State) (line : Stimulus) (restS restT : List Stimulus),
    s.stimulus = line :: restS → t.stimulus = line :: restT → line.hold = .untilSettled →
      (∃ r, step s = .refused r ∧ step t = .refused r) ∨
      (∃ s' t', step s = .next s' ∧ step t = .next t' ∧ s'.uf = t'.uf ∧ s'.result = t'.result ∧
        s'.stability = .settled ∧ t'.stability = .settled ∧ s'.stimulus = restS ∧ t'.stimulus = restT ∧
        s'.draws = s.draws ∧ t'.draws = t.draws)) ∧
  (∀ (s t s' t' : State) (lineS lineT : Stimulus) (restS restT : List Stimulus),
    s.stimulus = lineS :: restS → t.stimulus = lineT :: restT → lineS.lines = lineT.lines →
      step s = .next s' → step t = .next t' → s'.stability = .settled → t'.stability = .settled →
        s'.uf = t'.uf ∧ s'.result = t'.result)

/-- After the last line the environment holds `uf`, and the output settles to FTOI of it, even from a state whose
output had not settled (the spec's decision in R150 and D6; holding the word is log entry 5). -/
def Obligations.HeldInputSettles : Prop :=
  ∀ s : State, s.stimulus = [] → step s = .next { s with result := ftoi s.uf, stability := .settled }

/-- A block that holds no state stays where it is once its output has settled and nothing more is presented (the spec's
derivation in R31 and R153). That a step with nothing to present evaluates the held word is log entry 5; D14 says only
that a program ends. -/
def Obligations.SettledHeldStateIsFixed : Prop :=
  ∀ s : State, s.stimulus = [] → s.stability = .settled → Consistent s → step s = .next s

/-- The spec's decision D8 in R155, with `T_PD` open: a sample that is not settled sees the free value of log entry 3, and
everything else of the presentation still happens. A sample while `uf` is changing to another word is not settled, and
one of the word on `uf` whose output had settled always is: these two are log entry 12 (DEDUCED), not D8's words. The
stimulus list is log entry 5. -/
def Obligations.EarlySampleSeesFreeValue : Prop :=
  (∀ (s : State) (line : Stimulus) (rest : List Stimulus) (i : Instr) (elapsed : Nat),
    s.stimulus = line :: rest → decode line.lines = .ok i →
      line.hold.stabilityAfter (s.stabilityOf (encode i)) = .stableFor elapsed →
        step s = .next { s with
          uf := encode i, result := Config.unsettledResult s.draws, stability := .stableFor elapsed,
          stimulus := rest, draws := s.draws + 1 }) ∧
  (∀ (s : State) (w : Word), w ≠ s.uf → Hold.whileChanging.stabilityAfter (s.stabilityOf w) = .stableFor 0) ∧
  (∀ (s : State) (hold : Hold), s.stability = .settled → hold.stabilityAfter (s.stabilityOf s.uf) = .settled)

/-- The spec's decision D8 in R155, with `T_PD` open: the delay counts from when `uf` became stable. A word other than the
one on `uf` starts at 0; the word already there goes on from the time it has been stable, so that early samples of it
add up to `T_PD`, and one that had settled is evaluated however soon it is sampled (log entry 12). -/
def Obligations.StableTimeAddsUp : Prop :=
  ∀ (s : State) (delay : Nat) (rest : List Stimulus) (w : Word),
    s.stimulus = ⟨linesOfWord w, .sampledAfter delay⟩ :: rest →
      (w ≠ s.uf → step s =
        if Config.tPd ≤ delay then .next { s with uf := w, result := ftoi w, stability := .settled, stimulus := rest }
        else .next { s with
          uf := w, result := Config.unsettledResult s.draws, stability := .stableFor delay, stimulus := rest,
          draws := s.draws + 1 }) ∧
      (∀ elapsed, w = s.uf → s.stability = .stableFor elapsed → step s =
        if Config.tPd ≤ elapsed + delay then .next { s with result := ftoi w, stability := .settled, stimulus := rest }
        else .next { s with
          result := Config.unsettledResult s.draws, stability := .stableFor (elapsed + delay), stimulus := rest,
          draws := s.draws + 1 }) ∧
      (w = s.uf → s.stability = .settled → step s = .next { s with result := ftoi w, stimulus := rest })

/-- Every step keeps the time of a word that has not settled below `T_PD`: `uf` is never stable for `T_PD` with an output
that has not settled, but for a word only just presented (R155, D8; log entry 12). -/
def Obligations.StepKeepsUnsettledRecent : Prop :=
  ∀ s t : State, UnsettledIsRecent s → step s = .next t → UnsettledIsRecent t

/-- The spec's decision D7, and R61: a stimulus that is not 32 two-valued lines is refused, by a name that says why,
however long it would be held (the name for a wrong width is log entry 4, the stimulus list log entry 5). -/
def Obligations.IllDrivenInputRefused : Prop :=
  ∀ (s : State) (line : Stimulus) (rest : List Stimulus), s.stimulus = line :: rest →
    (line.lines.length = 32 → (∃ l ∈ line.lines, l.isBinary = false) → step s = .refused .nonBinaryInput) ∧
    (line.lines.length ≠ 32 → step s = .refused (.wrongWidth line.lines.length))

/-- At reset the invariants of this section hold (the spec's decision in R32 and R150; the word on `uf` and that its output
has settled are log entry 1; the contract rests on the value formula, the spec's GK1, log entry 7). -/
def Obligations.ResetIsConsistent : Prop :=
  State.reset.stability = .settled ∧ Consistent State.reset ∧ HonoursContract State.reset ∧ UnsettledIsRecent State.reset ∧
    Dutiful State.reset

/-- Every step that answers a next state leaves a settled output equal to FTOI of the input then present, from every
state (the spec's decision in R150; a step with nothing to present is log entry 5). -/
def Obligations.StepKeepsConsistency : Prop :=
  ∀ s t : State, Consistent s → step s = .next t → Consistent t

/-- Every step that answers a next state leaves a settled output that meets the contract on real values, whatever
circuit computed it (R101, R102; the value formula is the spec's GK1, log entry 7; a step with nothing to present is log
entry 5). -/
def Obligations.StepKeepsContract : Prop :=
  ∀ s t : State, HonoursContract s → step s = .next t → HonoursContract t

/-- A step takes lines off the stimulus and adds none, so a dutiful environment stays dutiful (R152; the stimulus list is
log entry 5). -/
def Obligations.StepKeepsDuty : Prop :=
  ∀ s t : State, Dutiful s → step s = .next t → Dutiful t

/-- With a dutiful environment every step answers a next state, and the environment stays dutiful (R130 and the spec's
decision in R152; a step with nothing to present is log entry 5). -/
def Obligations.DutifulStepCompletes : Prop :=
  ∀ s : State, Dutiful s → ∃ t, step s = .next t ∧ Dutiful t

/-- With a dutiful environment no run ever stops, of any length and from any state: neither a fault nor a refusal
(R130 and the spec's decision in R152; that a run goes on past the last line with the held word is log entry 5). -/
def Obligations.DutifulRunNeverStops : Prop :=
  ∀ (k : Nat) (s : State), Dutiful s → RunsFor k s

/-- R140: instances side by side do not interact (that they are a list of which one steps at a time is log entry 9). A step of one leaves every other as it was, and steps of two
different instances give the same bank in either order. -/
def Obligations.InstancesDoNotInteract : Prop :=
  (∀ (bank : List State) (k : Nat) (s t : State), bank[k]? = some s → step s = .next t →
    ∃ bank', stepInstance k bank = some bank' ∧ bank'[k]? = some t ∧ ∀ j, j ≠ k → bank'[j]? = bank[j]?) ∧
  (∀ (bank : List State) (j k : Nat), j ≠ k →
    (stepInstance j bank).bind (stepInstance k) = (stepInstance k bank).bind (stepInstance j))

/-- The spec's decision D11 in R158: a wrapper that registers the output shows `RESET_RESULT` until its register is
loaded, one that registers the input shows FTOI of it, and after one clock edge either shows FTOI of the word then at
its input (the wrapper is beside the core machine, log entry 8). -/
def Obligations.WrapperDelaysFtoi : Prop :=
  (Wrapped.afterReset .onResult).output = Config.resetResult ∧
  (Wrapped.afterReset .onInput).output = ftoi Config.resetResult ∧
  ∀ (w : Wrapped) (uf : Word), (w.clock uf).output = ftoi uf ∧ (w.clock uf).place = w.place

/-! ## Encoding -/

/-- R60, R70, R82: every word selects FTOI, and its three fields are bit 31, bits 30:23 and bits 22:0 of the word. -/
def Obligations.EveryWordSelectsFtoi : Prop :=
  ∀ uf : Word, ∃ (s : BitVec 1) (bexp : BitVec 8) (frac : BitVec 23),
    decode (linesOfWord uf) = .ok (.ftoi s bexp frac) ∧
    s.toNat = uf.toNat / 2 ^ 31 ∧ bexp.toNat = uf.toNat / 2 ^ 23 % 2 ^ 8 ∧ frac.toNat = uf.toNat % 2 ^ 23

/-- Decoding an encoded instruction gives it back, for every instruction and every value of its fields (R60, R71). -/
def Obligations.DecodeEncodeRoundTrip : Prop :=
  ∀ i : Instr, i.wellFormed = true → decode (encodeLines i) = .ok i

/-- Each accepted list of lines has one meaning: encoding what was decoded gives the same lines back (R61, R70). -/
def Obligations.EncodeDecodeRoundTrip : Prop :=
  ∀ (lines : List Level) (i : Instr), decode lines = .ok i → encodeLines i = lines

/-- The decoder accepts exactly what a dutiful environment drives, and rejects the rest by name (R61 and the spec's
decision D7; the rejections' names are log entry 4). -/
def Obligations.DecoderAcceptsExactlyWellDriven : Prop :=
  ∀ lines : List Level,
    ((∃ i, decode lines = .ok i) ↔ wellDriven lines = true) ∧
    (lines.length ≠ 32 → decode lines = .error (.wrongWidth lines.length)) ∧
    (lines.length = 32 → (∃ l ∈ lines, l.isBinary = false) → decode lines = .error .nonBinary)

/-- A few words of the spec's own vectors (section 2.1 of its test vectors) decode to the fields it lists. -/
def Obligations.SpecWordsDecode : Prop :=
  decode (linesOfWord 0x3F800000#32) = .ok (.ftoi 0#1 127#8 0x000000#23) ∧
  decode (linesOfWord 0xC0490FDB#32) = .ok (.ftoi 1#1 128#8 0x490FDB#23) ∧
  decode (linesOfWord 0x7F7FFFFF#32) = .ok (.ftoi 0#1 254#8 0x7FFFFF#23) ∧
  decode (linesOfWord 0x80000000#32) = .ok (.ftoi 1#1 0#8 0x000000#23)

/-- The classes of R63's table partition the inputs by their pattern ranges, and each input's output is its class's
(R63 and R64, which the spec derives). -/
def Obligations.ClassesPartitionInputs : Prop :=
  ∀ uf : Word, (∀ c : InputClass, classify uf = c ↔ InClassRange uf c) ∧ Gives uf (classOutput uf (classify uf))

/-! ## The sub-blocks -/

/-- R83: the zero detector tests full equality with `0x00000000`, selects 0, and does not match negative zero, which
gives 0 all the same. -/
def Obligations.ZeroDetectorIsLiteral : Prop :=
  (∀ uf : Word, isPzero uf = true ↔ uf = 0x00000000#32) ∧ Gives 0x00000000#32 0x00000000#32 ∧
  isPzero 0x80000000#32 = false ∧ Gives 0x80000000#32 0x00000000#32

/-- R84, R107: the special-value detector is the source's mask test, it excludes the zero pattern, and every infinity
and NaN gives the sentinel whatever its sign and significand bits. -/
def Obligations.SpecialValuesGiveSentinel : Prop :=
  ∀ uf : Word, (isSpecial (bexpField uf) = true ↔ uf &&& 0x7F800000#32 = 0x7F800000#32) ∧
    (isSpecial (bexpField uf) = true ↔ uf.toNat / 2 ^ 23 % 2 ^ 8 = 255) ∧
    (isSpecial (bexpField uf) = true → isPzero uf = false ∧ Gives uf 0x80000000#32)

/-- R85: every pattern with biased exponent 0 gives 0, whatever its sign and significand bits. -/
def Obligations.DenormalsGiveZero : Prop :=
  ∀ uf : Word, (isDenorm (bexpField uf) = true ↔ uf.toNat / 2 ^ 23 % 2 ^ 8 = 0) ∧
    (isDenorm (bexpField uf) = true → Gives uf 0x00000000#32)

/-- R86: the unbiased exponent is exact, in −127..128 for every input and in −126..127 for a normalized one, and it
fits a 9-bit two's-complement signal. -/
def Obligations.UnbiasedExponentIsExact : Prop :=
  ∀ uf : Word, exponentOf uf = (uf.toNat / 2 ^ 23 % 2 ^ 8 : ℕ) - 127 ∧
    -127 ≤ exponentOf uf ∧ exponentOf uf ≤ 128 ∧
    (1 ≤ (bexpField uf).toNat → (bexpField uf).toNat ≤ 254 → -126 ≤ exponentOf uf ∧ exponentOf uf ≤ 127) ∧
    (BitVec.ofInt 9 (exponentOf uf)).toInt = exponentOf uf

/-- R87: the mantissa is the significand bits with the implicit leading 1 restored, a number in [2^23, 2^24), the
same as OR with `0x800000`. -/
def Obligations.MantissaRestoresLeadingOne : Prop :=
  ∀ frac : BitVec 23, (mantissa frac).toNat = frac.toNat + 2 ^ 23 ∧
    2 ^ 23 ≤ (mantissa frac).toNat ∧ (mantissa frac).toNat < 2 ^ 24 ∧
    mantissa frac = frac.setWidth 24 ||| 0x800000#24

/-- R88: the small-magnitude detector is the comparison with 126, and it gives 0 whatever the sign. -/
def Obligations.SmallMagnitudesGiveZero : Prop :=
  ∀ uf : Word, (isSmall (exponentOf uf) = true ↔ uf.toNat / 2 ^ 23 % 2 ^ 8 ≤ 126) ∧
    (isSmall (exponentOf uf) = true → Gives uf 0x00000000#32)

/-- R89: the overflow detector is the comparison with 158, and it gives the sentinel whatever the sign and the
significand bits, the negative input `0xCF000000` included. -/
def Obligations.OverflowGivesSentinel : Prop :=
  (∀ uf : Word, (isOvf (exponentOf uf) = true ↔ 158 ≤ uf.toNat / 2 ^ 23 % 2 ^ 8) ∧
    (isOvf (exponentOf uf) = true → Gives uf 0x80000000#32)) ∧
  isOvf (exponentOf 0xCF000000#32) = true ∧ Gives 0xCF000000#32 0x80000000#32

/-- Left path (R90, R91, whose bound and `bexp` form the spec derives): a shift by 1 to 7 that loses no set bit. -/
def Obligations.LeftPathIsExact : Prop :=
  ∀ (m : BitVec 24) (e : Int), 24 ≤ e → e ≤ 30 →
    shiftsLeft e = true ∧ (shiftAmount e : Int) = e - 23 ∧ 1 ≤ shiftAmount e ∧ shiftAmount e ≤ 7 ∧
    barrelShift m e = m.setWidth 32 <<< (e - 23).toNat ∧
    (barrelShift m e).toNat = m.toNat * 2 ^ (e - 23).toNat ∧ (barrelShift m e).toNat < 2 ^ 31

/-- R92: the right path drops the low `23 − e` bits, a floor division; a shift by 0 passes the mantissa through. -/
def Obligations.RightPathTruncates : Prop :=
  ∀ (m : BitVec 24) (e : Int), 0 ≤ e → e ≤ 23 →
    shiftsLeft e = false ∧ (shiftAmount e : Int) = 23 - e ∧
    barrelShift m e = m.setWidth 32 >>> (23 - e).toNat ∧
    (barrelShift m e).toNat = m.toNat / 2 ^ (23 - e).toNat ∧
    (e = 23 → barrelShift m e = m.setWidth 32)

/-- The spec's decision D13 in R93: outside `e` in 0..30 the shifter's reference output is 0, and whatever it were,
`result` would be the same. -/
def Obligations.UnusedShifterOutputIsInvisible : Prop :=
  ∀ (uf mag : Word), ¬(0 ≤ exponentOf uf ∧ exponentOf uf ≤ 30) →
    magOf uf = 0x00000000#32 ∧
    Gives uf (saturationMux (isPzero uf) (isSpecial (bexpField uf)) (isDenorm (bexpField uf)) (isSmall (exponentOf uf))
      (isOvf (exponentOf uf)) (guardFires (signField uf) (applySign (signField uf) mag)) (applySign (signField uf) mag))

/-- R94, whose range the spec derives: negation modulo 2^32 where the sign is set, the identity where it is not, and
no wrap on the magnitudes the shifter gives. -/
def Obligations.SignApplicatorNegates : Prop :=
  ∀ (s : BitVec 1) (mag : Word),
    (s = 1#1 → (applySign s mag).toNat = (2 ^ 32 - mag.toNat) % 2 ^ 32) ∧
    (s = 0#1 → applySign s mag = mag) ∧
    (1 ≤ mag.toNat → mag.toNat ≤ 2 ^ 31 - 2 ^ 7 →
      (applySign s mag).toInt = if s = 1#1 then -(mag.toNat : Int) else (mag.toNat : Int))

/-- R95: the guard is 1 exactly where the sign is 0 and bit 31 of the value is 1; it then forces the sentinel where no
detector has fired, and it leaves a negative value alone. -/
def Obligations.GuardTestsPositivePathOnly : Prop :=
  ∀ (s : BitVec 1) (val : Word),
    (guardFires s val = true ↔ s = 0#1 ∧ 2 ^ 31 ≤ val.toNat) ∧
    saturationMux false false false false false (guardFires s val) val =
      if s = 0#1 ∧ 2 ^ 31 ≤ val.toNat then 0x80000000#32 else val

/-- R96: the mux selects by priority, the first true condition wins, with the outputs of the rule's table. -/
def Obligations.SaturationMuxPriority : Prop :=
  ∀ (pzero special denorm small ovf guarded : Bool) (val : Word),
    saturationMux pzero special denorm small ovf guarded val =
      firstMatch val [(pzero, 0x00000000#32), (special, 0x80000000#32), (denorm, 0x00000000#32),
        (small, 0x00000000#32), (ovf, 0x80000000#32), (guarded, 0x80000000#32)]

/-! ## Laws of the operation -/

/-- R81: the conditions are tested in the order of the source's steps and the first that matches wins; the detectors all
evaluate at once, and the saturation mux gives them this priority. The list in that order and the structure of five
sub-blocks both compute the operation on every input. -/
def Obligations.DatapathComputesFtoi : Prop :=
  ∀ uf : Word, Gives uf (firstMatch (valOf uf) (detectors uf ++ [(guardFires (signField uf) (valOf uf), 0x80000000#32)])) ∧
    Gives uf (datapath uf)

/-- The spec's derivation R97: the detectors overlap only where they agree, so every order of them, and a plain OR of
them, selects the same output. -/
def Obligations.DetectorOrderIrrelevant : Prop :=
  ∀ uf : Word,
    (isPzero uf = true → isDenorm (bexpField uf) = true) ∧
    (isDenorm (bexpField uf) = true → exponentOf uf = -127 ∧ isSmall (exponentOf uf) = true) ∧
    (isSpecial (bexpField uf) = true → exponentOf uf = 128 ∧ isOvf (exponentOf uf) = true) ∧
    (isSmall (exponentOf uf) && isOvf (exponentOf uf)) = false ∧
    (0 ≤ exponentOf uf → exponentOf uf ≤ 30 → isSmall (exponentOf uf) = false ∧ isOvf (exponentOf uf) = false) ∧
    (∀ order : List (Bool × Word), order.Perm (detectors uf) → Gives uf (firstMatch (valOf uf) order)) ∧
    Gives uf (if isSpecial (bexpField uf) || isOvf (exponentOf uf) then 0x80000000#32
      else if isPzero uf || isDenorm (bexpField uf) || isSmall (exponentOf uf) then 0x00000000#32 else valOf uf)

/-- The spec's derivation R98: the closed form, by two comparisons on the biased exponent. -/
def Obligations.ClosedFormEqualsFtoi : Prop :=
  ∀ uf : Word,
    let bexp : ℕ := uf.toNat / 2 ^ 23 % 2 ^ 8
    let m : ℕ := uf.toNat % 2 ^ 23 + 2 ^ 23
    let mag : ℕ := if 150 < bexp then m * 2 ^ (bexp - 150) else m / 2 ^ (150 - bexp)
    Gives uf (if 158 ≤ bexp then 0x80000000#32 else if bexp ≤ 126 then 0x00000000#32
      else BitVec.ofInt 32 (if uf.toNat < 2 ^ 31 then (mag : ℤ) else -(mag : ℤ)))

/-- The spec's derivation R99: the final guard never fires. -/
def Obligations.FinalGuardNeverFires : Prop :=
  ∀ uf : Word, guardFires (signField uf) (valOf uf) = false

/-- The spec's derivation R100: the ranges on the used path, with the bounds that are attained. -/
def Obligations.UsedPathRanges : Prop :=
  (∀ uf : Word, 0 ≤ exponentOf uf → exponentOf uf ≤ 30 →
    1 ≤ (magOf uf).toNat ∧ (magOf uf).toNat ≤ 2147483520 ∧ shiftAmount (exponentOf uf) ≤ 23 ∧
    ∃ r, Gives uf r ∧ -2147483520 ≤ r.toInt ∧ r.toInt ≤ 2147483520) ∧
  magOf 0x3F800000#32 = 1#32 ∧ magOf 0x4EFFFFFF#32 = 0x7FFFFF80#32

/-- The contract (R101, R102): every finite input whose real value truncates to an integer below 2^31 in magnitude
gives that integer, and every other input gives the sentinel. The value formula is the spec's GK1, taken from general
knowledge (log entry 7). -/
def Obligations.ContractOnRealValues : Prop :=
  ∀ uf : Word, ∃ r, Gives uf r ∧ MeetsContract uf r

/-- The spec's derivation R104, with R103: every negative pattern from negative zero up to `0xBF7FFFFF` gives 0, so
the output has no negative zero. -/
def Obligations.NegativeFractionsGiveZero : Prop :=
  ∀ uf : Word, 0x80000000 ≤ uf.toNat → uf.toNat ≤ 0xBF7FFFFF → Gives uf 0x00000000#32

/-- The spec's derivation R105: −2^31 gives its own pattern, no other finite input truncates to −2^31, and no value
lies in the two gaps beside it (values by GK1, log entry 7). -/
def Obligations.MinimumIntegerIsExact : Prop :=
  Gives 0xCF000000#32 0x80000000#32 ∧ realValue 0xCF000000#32 = -2 ^ 31 ∧ (0x80000000#32).toInt = -2 ^ 31 ∧
  (∀ uf : Word, IsFinite uf → truncate (realValue uf) = -2 ^ 31 → uf = 0xCF000000#32) ∧
  (∀ uf : Word, IsFinite uf →
    ¬(-2 ^ 31 - 256 < realValue uf ∧ realValue uf < -2 ^ 31) ∧
    ¬(-2 ^ 31 < realValue uf ∧ realValue uf < -2 ^ 31 + 128))

/-- R106: an infinity, a NaN, an out-of-range input and −2^31 give one and the same output, so no function of `result`
tells whether the input was representable (with the spec's decision D3: there is no other output; values by GK1, log
entry 7). -/
def Obligations.SentinelIsAmbiguous : Prop :=
  Gives 0x7F800000#32 0x80000000#32 ∧ Gives 0x7FC00000#32 0x80000000#32 ∧ Gives 0x4F000000#32 0x80000000#32 ∧
  Gives 0xCF000000#32 0x80000000#32 ∧ realValue 0x4F000000#32 = 2 ^ 31 ∧
  ¬∃ f : Word → Bool, ∀ uf r : Word, Gives uf r →
    (f r = true ↔ IsFinite uf ∧ -2 ^ 31 ≤ truncate (realValue uf) ∧ truncate (realValue uf) < 2 ^ 31)

/-- R110: saturation is not clamping. No input gives `0x7FFFFFFF`, and `0x80000000` is the output of exactly the
inputs with biased exponent 158 or more, of either sign. -/
def Obligations.SaturationDoesNotClamp : Prop :=
  ∀ uf : Word, ∃ r, Gives uf r ∧ r ≠ 0x7FFFFFFF#32 ∧ (r = 0x80000000#32 ↔ 158 ≤ uf.toNat / 2 ^ 23 % 2 ^ 8)

/-- The spec's derivation R108, the round trip as its conflict C1 corrects it: an integer below 2^31 in magnitude that
some pattern has as its value comes back from that pattern, and every integer up to 2^24 in magnitude is such a value
(values by GK1, log entry 7). -/
def Obligations.ExactIntegersRoundTrip : Prop :=
  (∀ (k : ℤ) (uf : Word), |k| < 2 ^ 31 → IsFinite uf → realValue uf = k → Gives uf (BitVec.ofInt 32 k)) ∧
  (∀ k : ℤ, |k| ≤ 2 ^ 24 → ∃ uf : Word, IsFinite uf ∧ realValue uf = k)

/-- R111: the conversion always rounds toward zero. In the contract's range the output has at most the magnitude of the
real value, lies less than 1 from it, and is not of the opposite sign (values by GK1, log entry 7). -/
def Obligations.RoundingIsTowardZero : Prop :=
  ∀ uf : Word, IsFinite uf → |truncate (realValue uf)| < 2 ^ 31 →
    ∃ r, Gives uf r ∧ |(r.toInt : ℚ)| ≤ |realValue uf| ∧ |realValue uf - r.toInt| < 1 ∧
      0 ≤ realValue uf * r.toInt

/-- The spec's derivation R112: flipping the sign bit negates the output of an input in range and leaves every other
output as it was, 0 or the sentinel. -/
def Obligations.SignSymmetry : Prop :=
  ∀ uf : Word, ∃ r r', Gives uf r ∧ Gives (uf ^^^ 0x80000000#32) r' ∧
    (127 ≤ (bexpField uf).toNat ∧ (bexpField uf).toNat ≤ 157 → r' = BitVec.ofInt 32 (-r.toInt)) ∧
    (¬(127 ≤ (bexpField uf).toNat ∧ (bexpField uf).toNat ≤ 157) →
      r' = r ∧ (r = 0x00000000#32 ∨ r = 0x80000000#32))

/-- The spec's derivation R113: from `e` = 23 on no bit of the mantissa is dropped, and below it the low `23 − e` bits
are, toward zero for either sign. -/
def Obligations.ExactnessByExponent : Prop :=
  ∀ uf : Word,
    let m : ℤ := (mantissa (fracField uf)).toNat
    let sign : ℤ := (-1) ^ (signField uf).toNat
    (23 ≤ exponentOf uf → exponentOf uf ≤ 30 →
      ∃ r, Gives uf r ∧ r.toInt = sign * m * 2 ^ (exponentOf uf - 23).toNat) ∧
    (0 ≤ exponentOf uf → exponentOf uf ≤ 22 →
      ∃ r, Gives uf r ∧ r.toInt = sign * (m / 2 ^ (23 - exponentOf uf).toNat))
end

