-- ==== Sys2Proof/Laws/Decode.lean ====
section
/-! SUPPORT. The lines of a word and the number on them, the fields of a word and the word made of fields, and what the
decoder answers. -/

namespace Sys2Proof

@[simp] theorem linesOfNat_length (n w : Nat) : (linesOfNat n w).length = n := by
  induction n generalizing w with
  | zero => rfl
  | succ n ih => simp [linesOfNat, ih]

theorem linesOfNat_isBinary (n w : Nat) : ∀ l ∈ linesOfNat n w, l.isBinary = true := by
  induction n generalizing w with
  | zero => simp [linesOfNat]
  | succ n ih =>
    intro l hl
    rcases List.mem_cons.1 hl with rfl | hl
    · split <;> rfl
    · exact ih _ _ hl

/-- Reading back the lines of a number gives the bits that were written. -/
theorem numberOfLines_linesOfNat (n w : Nat) : numberOfLines (linesOfNat n w) = some (w % 2 ^ n) := by
  induction n generalizing w with
  | zero => simp [linesOfNat, numberOfLines, Nat.mod_one]
  | succ n ih =>
    have hsplit : w % 2 ^ (n + 1) = w % 2 + 2 * (w / 2 % 2 ^ n) := by
      rw [Nat.pow_succ, Nat.mul_comm, Nat.mod_mul]
    simp only [linesOfNat, numberOfLines, ih, hsplit]
    rcases Nat.mod_two_eq_zero_or_one w with h | h <;> simp [h, Level.bit?]

/-- A line has a bit exactly where it is two-valued. -/
theorem Level.bit?_cases (l : Level) :
    (l = .low ∧ l.bit? = some 0) ∨ (l = .high ∧ l.bit? = some 1) ∨ (l.isBinary = false ∧ l.bit? = none) := by
  cases l <;> simp [Level.bit?, Level.isBinary]

/-- Two-valued lines carry a number, and writing that number gives the lines back. -/
theorem numberOfLines_of_isBinary (lines : List Level) (h : ∀ l ∈ lines, l.isBinary = true) :
    ∃ n, numberOfLines lines = some n ∧ n < 2 ^ lines.length ∧ linesOfNat lines.length n = lines := by
  induction lines with
  | nil => exact ⟨0, rfl, by simp, rfl⟩
  | cons l rest ih =>
    obtain ⟨n, hn, hlt, hback⟩ := ih fun x hx => h x (List.mem_cons_of_mem _ hx)
    have hl := h l List.mem_cons_self
    rcases l.bit?_cases with ⟨rfl, hb⟩ | ⟨rfl, hb⟩ | ⟨hf, -⟩
    · exact ⟨0 + 2 * n, by simp [numberOfLines, hb, hn], by simp only [List.length_cons, Nat.pow_succ]; omega,
        by simp [linesOfNat, hback]⟩
    · refine ⟨1 + 2 * n, by simp [numberOfLines, hb, hn], by simp only [List.length_cons, Nat.pow_succ]; omega, ?_⟩
      have hhalf : (1 + 2 * n) / 2 = n := by omega
      have hodd : (1 + 2 * n) % 2 = 1 := by omega
      simp [linesOfNat, hback, hhalf, hodd]
    · simp [hf] at hl

/-- One line that is not two-valued takes the number away. -/
theorem numberOfLines_of_not_isBinary (lines : List Level) (h : ∃ l ∈ lines, l.isBinary = false) :
    numberOfLines lines = none := by
  induction lines with
  | nil => simp at h
  | cons l rest ih =>
    obtain ⟨x, hx, hf⟩ := h
    rcases List.mem_cons.1 hx with rfl | hx
    · rcases x.bit?_cases with ⟨rfl, -⟩ | ⟨rfl, -⟩ | ⟨-, hb⟩
      · cases hf
      · cases hf
      · simp [numberOfLines, hb]
    · simp [numberOfLines, ih ⟨x, hx, hf⟩]

/-- What the decoder answers on the lines of a word. -/
@[simp] theorem decode_linesOfWord (w : Word) : decode (linesOfWord w) = .ok (decodeWord w) := by
  simp only [decode, linesOfWord, linesOfNat_length, numberOfLines_linesOfNat, if_true]
  rw [Nat.mod_eq_of_lt w.isLt, BitVec.ofNat_toNat, BitVec.setWidth_eq]

@[simp] theorem signField_toNat (w : Word) : (signField w).toNat = w.toNat / 2 ^ 31 := by
  have := w.isLt
  simp only [signField, BitVec.extractLsb'_toNat, Nat.shiftRight_eq_div_pow]
  omega

@[simp] theorem bexpField_toNat (w : Word) : (bexpField w).toNat = w.toNat / 2 ^ 23 % 2 ^ 8 := by
  simp [bexpField, BitVec.extractLsb'_toNat, Nat.shiftRight_eq_div_pow]

@[simp] theorem fracField_toNat (w : Word) : (fracField w).toNat = w.toNat % 2 ^ 23 := by
  simp [fracField, BitVec.extractLsb'_toNat]

/-- The word made of three fields, as a number. -/
theorem packFields_toNat (s : BitVec 1) (bexp : BitVec 8) (frac : BitVec 23) :
    (packFields s bexp frac).toNat = s.toNat * 2 ^ 31 + bexp.toNat * 2 ^ 23 + frac.toNat := by
  have hb := bexp.isLt
  have hf := frac.isLt
  rw [packFields, BitVec.toNat_append, BitVec.toNat_append,
    ← Nat.shiftLeft_add_eq_or_of_lt hf, ← Nat.shiftLeft_add_eq_or_of_lt hb]
  simp only [Nat.shiftLeft_eq]
  ring

@[simp] theorem signField_packFields (s : BitVec 1) (bexp : BitVec 8) (frac : BitVec 23) :
    signField (packFields s bexp frac) = s := by
  apply BitVec.eq_of_toNat_eq
  have h := packFields_toNat s bexp frac
  have hb := bexp.isLt
  have hf := frac.isLt
  rw [signField_toNat]; omega

@[simp] theorem bexpField_packFields (s : BitVec 1) (bexp : BitVec 8) (frac : BitVec 23) :
    bexpField (packFields s bexp frac) = bexp := by
  apply BitVec.eq_of_toNat_eq
  have h := packFields_toNat s bexp frac
  have hb := bexp.isLt
  have hf := frac.isLt
  rw [bexpField_toNat]; omega

@[simp] theorem fracField_packFields (s : BitVec 1) (bexp : BitVec 8) (frac : BitVec 23) :
    fracField (packFields s bexp frac) = frac := by
  apply BitVec.eq_of_toNat_eq
  have h := packFields_toNat s bexp frac
  have hf := frac.isLt
  rw [fracField_toNat]; omega

/-- Splitting a word and putting it together again changes nothing. -/
@[simp] theorem packFields_fields (w : Word) : packFields (signField w) (bexpField w) (fracField w) = w := by
  apply BitVec.eq_of_toNat_eq
  have := w.isLt
  rw [packFields_toNat, signField_toNat, bexpField_toNat, fracField_toNat]; omega

@[simp] theorem encode_decodeWord (w : Word) : encode (decodeWord w) = w := packFields_fields w

end Sys2Proof
end

