-- ==== Sys2Proof/Laws/Flags.lean ====
section
/-! SUPPORT. When each condition signal is 1, as a proposition; later proofs cite these and unfold no detector. -/

namespace Sys2Proof.Machine

@[simp] theorem isPzero_iff (uf : Word) : isPzero uf = true ↔ uf = 0x00000000#32 := by simp [isPzero]

@[simp] theorem isSpecial_iff (bexp : BitVec 8) : isSpecial bexp = true ↔ bexp.toNat = 255 := by simp [isSpecial]

@[simp] theorem isDenorm_iff (bexp : BitVec 8) : isDenorm bexp = true ↔ bexp.toNat = 0 := by
  simp only [isDenorm, beq_iff_eq]

@[simp] theorem isSmall_iff (e : Int) : isSmall e = true ↔ e < 0 := by simp [isSmall]

@[simp] theorem isOvf_iff (e : Int) : isOvf e = true ↔ 31 ≤ e := by simp [isOvf]

theorem guardFires_iff (sign : BitVec 1) (val : Word) :
    guardFires sign val = true ↔ sign = 0#1 ∧ val.getLsbD 31 = true := by
  simp [guardFires]

/-- A negative sign never lets the guard fire. -/
@[simp] theorem guardFires_negative (val : Word) : guardFires 1#1 val = false := by simp [guardFires]

end Sys2Proof.Machine
end

