-- ==== Sys2Proof/Laws/Ops.lean ====
section
/-! SUPPORT. One spec lemma per shared operation: what it can do, said once. -/

namespace Sys2Proof.Machine

@[simp] theorem stabilityAfter_untilSettled (before : Stability) :
    Hold.untilSettled.stabilityAfter before = .settled := rfl

@[simp] theorem stabilityAfter_whileChanging (before : Stability) :
    Hold.whileChanging.stabilityAfter before = before := rfl

@[simp] theorem stabilityAfter_sampledAfter (elapsed delay : Nat) :
    (Hold.sampledAfter delay).stabilityAfter (.stableFor elapsed) =
      if Config.tPd ≤ elapsed + delay then .settled else .stableFor (elapsed + delay) := rfl

/-- A settled output of a stable word stays settled, however soon it is sampled again. -/
@[simp] theorem stabilityAfter_settled (hold : Hold) : hold.stabilityAfter .settled = .settled := by cases hold <;> rfl

/-- An unsettled sample is of a word that had not settled before, and that no wait or delay has settled since. -/
theorem stabilityAfter_eq_stableFor {hold : Hold} {before : Stability} {t : Nat}
    (h : hold.stabilityAfter before = .stableFor t) :
    ∃ elapsed, before = .stableFor elapsed ∧ ((hold = .whileChanging ∧ t = elapsed) ∨
      ∃ delay, hold = .sampledAfter delay ∧ t = elapsed + delay ∧ t < Config.tPd) := by
  cases before with
  | settled => simp at h
  | stableFor elapsed =>
    refine ⟨elapsed, rfl, ?_⟩
    cases hold with
    | untilSettled => simp at h
    | whileChanging => exact .inl ⟨rfl, by simpa using h.symm⟩
    | sampledAfter delay =>
      rw [stabilityAfter_sampledAfter] at h
      split at h
      · cases h
      · cases h; exact .inr ⟨delay, rfl, rfl, by omega⟩

@[simp] theorem stabilityOf_self (s : State) : s.stabilityOf s.uf = s.stability := if_pos rfl

theorem stabilityOf_changed {s : State} {w : Word} (h : w ≠ s.uf) : s.stabilityOf w = .stableFor 0 := if_neg h

/-- What is on the port next: the held word, or the first line of the stimulus, which is taken off it. -/
theorem fetch_cases (s : State) :
    (s.stimulus = [] ∧ fetch s = (⟨linesOfWord s.uf, .untilSettled⟩, s)) ∨
    (∃ line rest, s.stimulus = line :: rest ∧ fetch s = (line, { s with stimulus := rest })) := by
  unfold fetch
  cases h : s.stimulus with
  | nil => exact .inl ⟨rfl, rfl⟩
  | cons line rest => exact .inr ⟨line, rest, rfl, rfl⟩

/-- Taking the next line changes the stimulus alone. -/
theorem fetch_frame (s : State) :
    (fetch s).2.uf = s.uf ∧ (fetch s).2.result = s.result ∧ (fetch s).2.stability = s.stability ∧
      (fetch s).2.draws = s.draws := by
  rcases fetch_cases s with ⟨-, h⟩ | ⟨line, rest, -, h⟩ <;> simp [h]

theorem mantissa_toNat (frac : BitVec 23) : (mantissa frac).toNat = 2 ^ 23 + frac.toNat := by
  rw [mantissa, BitVec.toNat_append, ← Nat.shiftLeft_add_eq_or_of_lt frac.isLt]
  rfl

/-- The used right path as a floor division (R92). -/
theorem barrelShift_right_toNat (m : BitVec 24) {e : Int} (h0 : 0 ≤ e) (h : e ≤ 23) :
    (barrelShift m e).toNat = m.toNat / 2 ^ (23 - e).toNat := by
  have hm := m.isLt
  have hl : ¬ 23 < e := by omega
  have h30 : 0 ≤ e ∧ e ≤ 30 := by omega
  simp only [barrelShift, shiftAmount, shiftsLeft, hl, h30, and_self, decide_false, if_true, if_false,
    Bool.false_eq_true, BitVec.toNat_ushiftRight, BitVec.toNat_setWidth, Nat.shiftRight_eq_div_pow]
  rw [Nat.mod_eq_of_lt (by omega)]

/-- The used left path as an exact multiplication (R91). -/
theorem barrelShift_left_toNat (m : BitVec 24) {e : Int} (h : 23 < e) (h30 : e ≤ 30) :
    (barrelShift m e).toNat = m.toNat * 2 ^ (e - 23).toNat := by
  have hm := m.isLt
  have h' : 0 ≤ e ∧ e ≤ 30 := by omega
  have hp : 2 ^ (e - 23).toNat ≤ 2 ^ 7 := Nat.pow_le_pow_right (by omega) (by omega)
  have hlt : m.toNat * 2 ^ (e - 23).toNat < 2 ^ 32 :=
    lt_of_le_of_lt (Nat.mul_le_mul_left _ hp) (by omega)
  simp only [barrelShift, shiftAmount, shiftsLeft, h, h', and_self, decide_true, if_true,
    BitVec.toNat_shiftLeft, BitVec.toNat_setWidth, Nat.shiftLeft_eq]
  rw [Nat.mod_eq_of_lt (a := m.toNat) (by omega), Nat.mod_eq_of_lt hlt]

/-- Off the used path the shifter gives its reference value (R93). -/
theorem barrelShift_unused (m : BitVec 24) {e : Int} (h : ¬(0 ≤ e ∧ e ≤ 30)) : barrelShift m e = 0#32 := by
  simp [barrelShift, h]

@[simp] theorem shiftsLeft_iff (e : Int) : shiftsLeft e = true ↔ 23 < e := by simp [shiftsLeft]

@[simp] theorem applySign_zero (mag : Word) : applySign 0#1 mag = mag := by simp [applySign]

@[simp] theorem applySign_one (mag : Word) : applySign 1#1 mag = -mag := by
  simp [applySign, BitVec.neg_eq_not_add]

/-- The sign is one of two. -/
theorem sign_cases (s : BitVec 1) : s = 0#1 ∨ s = 1#1 := by
  rcases s with ⟨⟨v, hv⟩⟩
  have : v = 0 ∨ v = 1 := by omega
  rcases this with rfl | rfl
  · exact .inl rfl
  · exact .inr rfl

end Sys2Proof.Machine
end

