-- ==== Sys2Proof/Laws/PerInstr.lean ====
section
/-! SUPPORT. Statements made per instruction: one family, Fields, about the encoding of each constructor. -/

/-- The word of an instruction selects that instruction: no field of it is lost or displaced in the word (R60). -/
def Sys2Proof.Laws.Fields.Statement (i : Sys2Proof.Instr) : Prop :=
  Sys2Proof.decodeWord (Sys2Proof.encode i) = i

theorem Sys2Proof.Laws.Fields.ftoi (sign : BitVec 1) (bexp : BitVec 8) (frac : BitVec 23) :
    Sys2Proof.Laws.Fields.Statement (.ftoi sign bexp frac) := by
  simp [Statement, encode, decodeWord]
end

