-- ==== Sys2Proof/Laws/State.lean ====
section
/-! SUPPORT. One lemma per field per update of State, so that no proof unfolds a record update. -/

namespace Sys2Proof.Machine.State

variable (s : State) (uf result w : Word) (elapsed : Nat)

@[simp] theorem settleOn_uf : (s.settleOn uf result).uf = uf := rfl
@[simp] theorem settleOn_result : (s.settleOn uf result).result = result := rfl
@[simp] theorem settleOn_stability : (s.settleOn uf result).stability = .settled := rfl
@[simp] theorem settleOn_stimulus : (s.settleOn uf result).stimulus = s.stimulus := rfl
@[simp] theorem settleOn_draws : (s.settleOn uf result).draws = s.draws := rfl

@[simp] theorem sampleEarly_uf : (s.sampleEarly uf elapsed).uf = uf := rfl
@[simp] theorem sampleEarly_result : (s.sampleEarly uf elapsed).result = Config.unsettledResult s.draws := rfl
@[simp] theorem sampleEarly_stability : (s.sampleEarly uf elapsed).stability = .stableFor elapsed := rfl
@[simp] theorem sampleEarly_stimulus : (s.sampleEarly uf elapsed).stimulus = s.stimulus := rfl
@[simp] theorem sampleEarly_draws : (s.sampleEarly uf elapsed).draws = s.draws + 1 := rfl

@[simp] theorem present_uf : (s.present w).uf = s.uf := rfl
@[simp] theorem present_result : (s.present w).result = s.result := rfl
@[simp] theorem present_stability : (s.present w).stability = s.stability := rfl
@[simp] theorem present_stimulus : (s.present w).stimulus = ⟨linesOfWord w, .untilSettled⟩ :: s.stimulus := rfl
@[simp] theorem present_draws : (s.present w).draws = s.draws := rfl

/-- Evaluating again overwrites the ports; nothing of an earlier evaluation remains (R31). -/
@[simp] theorem settleOn_settleOn (uf' result' : Word) :
    (s.settleOn uf result).settleOn uf' result' = s.settleOn uf' result' := rfl

/-- A settled state that already shows the pair is not changed by settling on it. -/
theorem settleOn_self (hu : s.uf = uf) (hr : s.result = result) (hs : s.stability = .settled) :
    s.settleOn uf result = s := by
  cases s; simp_all [settleOn]

end Sys2Proof.Machine.State
end

