-- ==== Sys2Proof/Laws/Step.lean ====
section
/-! SUPPORT. What `exec` and `step` can do, said once; later proofs cite these and unfold neither. -/

namespace Sys2Proof.Machine

theorem exec_eq (i : Instr) (s : State) : exec i s = .next (s.settleOn (encode i) (ftoi (encode i))) := by
  cases i; rfl

/-- The three ways a step goes, by what is on the port. -/
theorem step_cases (s : State) :
    (∃ e, decode (fetch s).1.lines = .error e ∧ step s = .refused (refusalOf e)) ∨
    (∃ i, decode (fetch s).1.lines = .ok i ∧
      (fetch s).1.hold.stabilityAfter (s.stabilityOf (encode i)) = .settled ∧
      step s = .next ((fetch s).2.settleOn (encode i) (ftoi (encode i)))) ∨
    (∃ i elapsed, decode (fetch s).1.lines = .ok i ∧
      (fetch s).1.hold.stabilityAfter (s.stabilityOf (encode i)) = .stableFor elapsed ∧
      step s = .next ((fetch s).2.sampleEarly (encode i) elapsed)) := by
  unfold step
  cases hd : decode (fetch s).1.lines with
  | error e => exact .inl ⟨e, rfl, rfl⟩
  | ok i =>
    cases hs : (fetch s).1.hold.stabilityAfter (s.stabilityOf (encode i)) with
    | settled => exact .inr (.inl ⟨i, rfl, hs, by simp [hs, exec_eq]⟩)
    | stableFor elapsed => exact .inr (.inr ⟨i, elapsed, rfl, hs, by simp [hs]⟩)

/-- A step that answers a next state has settled on FTOI of the decoded word, or sampled it early. -/
theorem step_next_cases {s t : State} (h : step s = .next t) :
    (∃ i, decode (fetch s).1.lines = .ok i ∧
      (fetch s).1.hold.stabilityAfter (s.stabilityOf (encode i)) = .settled ∧
      t = (fetch s).2.settleOn (encode i) (ftoi (encode i))) ∨
    (∃ i elapsed, decode (fetch s).1.lines = .ok i ∧
      (fetch s).1.hold.stabilityAfter (s.stabilityOf (encode i)) = .stableFor elapsed ∧
      t = (fetch s).2.sampleEarly (encode i) elapsed) := by
  rcases step_cases s with ⟨e, -, he⟩ | ⟨i, hd, hs, hn⟩ | ⟨i, elapsed, hd, hs, hn⟩
  · rw [he] at h; cases h
  · rw [hn] at h; cases h; exact .inl ⟨i, hd, hs, rfl⟩
  · rw [hn] at h; cases h; exact .inr ⟨i, elapsed, hd, hs, rfl⟩

end Sys2Proof.Machine
end

