-- ==== Sys2Proof/Tests/Slice0.lean ====
section
/-! SUPPORT. The model's own tests. Expected results come from the spec: its vectors (95_test_vectors.md), its rules'
tables, or its own examples; the section is named at each. Then a witness for the hypotheses of each statement. -/

namespace Sys2Proof.Tests

open Sys2Proof Sys2Proof.Machine Sys2Proof.Safety

/-- Lines from a word's bits written most significant first, as the spec writes an encoding (95 section 3). -/
def linesMsbFirst (bits : List Nat) : List Level := (bits.map fun b => if b = 1 then .high else .low).reverse

/-- A state whose output has not settled, with one word to come. -/
def demo (w : Word) : State :=
  { uf := 0xFFFFFFFF#32, result := 0x12345678#32, stability := .stableFor 0, stimulus := [⟨linesOfWord w, .untilSettled⟩], draws := 5 }

/-! ## WellFormed and Decode -/

/-- R61: one line short. -/
theorem test_wellDriven_refuses_31_lines : wellDriven (List.replicate 31 .low) = false := by decide

/-- R61: one line over. -/
theorem test_wellDriven_refuses_33_lines : wellDriven (List.replicate 33 .low) = false := by decide

/-- D7: each of the three non-binary levels, on the top line alone. -/
theorem test_wellDriven_refuses_nonBinary :
    [Level.unknown, .highImpedance, .metastable].all
      (fun l => !wellDriven (List.replicate 31 .low ++ [l])) = true := by decide

/-- R65: both extreme words are legal. -/
theorem test_wellDriven_accepts_words :
    wellDriven (List.replicate 32 .low) = true ∧ wellDriven (List.replicate 32 .high) = true := by decide

/-- 95 section 3, P1 line 7: `01000000010010010000111111011011` is `0x40490FDB`; fields as in section 2.1. -/
theorem test_decode_pi :
    decode (linesMsbFirst [0, 1,0,0,0,0,0,0,0, 1,0,0,1,0,0,1,0,0,0,0,1,1,1,1,1,1,0,1,1,0,1,1]) =
      .ok (.ftoi 0#1 128#8 0x490FDB#23) := by decide

/-- 95 section 3, P3 line 2: `10111111110000000000000000000000` is `0xBFC00000`, −1.5. -/
theorem test_decode_negative :
    decode (linesMsbFirst [1, 0,1,1,1,1,1,1,1, 1,0,0,0,0,0,0,0,0,0,0,0,0,0,0,0,0,0,0,0,0,0,0]) =
      .ok (.ftoi 1#1 127#8 0x400000#23) := by decide

/-- The encoder writes the same word (R71). -/
theorem test_encode_negative : encode (.ftoi 1#1 127#8 0x400000#23) = 0xBFC00000#32 := by decide

theorem test_decode_rejects_by_name :
    decode (List.replicate 31 .low) = .error (.wrongWidth 31) ∧
    decode (.highImpedance :: List.replicate 31 .low) = .error .nonBinary := by decide

theorem test_decodeTableWord :
    decodeTableWord 32 0x4EFFFFFF = some (.ftoi 0#1 157#8 0x7FFFFF#23) ∧ decodeTableWord 40 0 = none := by decide

/-! ## One step -/

/-- R80's worked example: −1.5 gives −1; nothing but the ports and the stability changes, and the line is used up. -/
theorem test_step_worked_example :
    step (demo 0xBFC00000#32) =
      .next { uf := 0xBFC00000#32, result := 0xFFFFFFFF#32, stability := .settled, stimulus := [], draws := 5 } := rfl

/-- V-OV-01 (95 section 2.5): 2^31 gives the sentinel, run as the first instruction after reset. -/
theorem test_step_from_reset :
    step (State.reset.withFetchWord 32 0x4F000000) =
      .next { State.reset with uf := 0x4F000000#32, result := 0x80000000#32 } := rfl

/-- R150, R155: a word that had settled stays settled when it is presented again and sampled at once. -/
theorem test_step_settled_word_again :
    step { State.reset with stimulus := [⟨linesOfWord 0x00000000#32, .sampledAfter 0⟩] } = .next State.reset := rfl

/-! ## The spec's vectors -/

/-- 95 section 1.1, the source's literal scenarios L1-01 to L1-07. -/
theorem test_source_scenarios :
    [(0x00000000#32, 0x00000000#32), (0x3F800000#32, 0x00000001#32), (0xBF800000#32, 0xFFFFFFFF#32),
     (0x7F800000#32, 0x80000000#32), (0xFF800000#32, 0x80000000#32), (0x4F000000#32, 0x80000000#32),
     (0x00000001#32, 0x00000000#32)].all (fun v => ftoi v.1 == v.2) = true := by decide

/-- 95 section 2.2: is_pzero, is_special, is_denorm, is_small, is_ovf, guard for each row. -/
theorem test_detectors :
    [(0x00000000#32, [true, false, true, true, false, false]), (0x80000000#32, [false, false, true, true, false, false]),
     (0x807FFFFF#32, [false, false, true, true, false, false]), (0x7F800000#32, [false, true, false, false, true, false]),
     (0xFFC00000#32, [false, true, false, false, true, false]), (0x3F000000#32, [false, false, false, true, false, false]),
     (0xBF7FFFFF#32, [false, false, false, true, false, false]), (0x4F000000#32, [false, false, false, false, true, false]),
     (0xCF000000#32, [false, false, false, false, true, false]), (0x3F800000#32, [false, false, false, false, false, false]),
     (0xCEFFFFFF#32, [false, false, false, false, false, false])].all
      (fun v => [isPzero v.1, isSpecial (bexpField v.1), isDenorm (bexpField v.1), isSmall (exponentOf v.1),
        isOvf (exponentOf v.1), guardFires (signField v.1) (valOf v.1)] == v.2) = true := by decide

/-- 95 section 2.3: the barrel shifter. -/
theorem test_barrelShift :
    [(0x800000#24, (0 : Int), 0x00000001#32), (0xFFFFFF#24, 0, 0x00000001#32), (0xC00000#24, 1, 0x00000003#32),
     (0xF6E979#24, 6, 0x0000007B#32), (0xFFFFFF#24, 22, 0x007FFFFF#32), (0xFFFFFF#24, 23, 0x00FFFFFF#32),
     (0x800000#24, 24, 0x01000000#32), (0x800001#24, 24, 0x01000002#32), (0xBEBC20#24, 26, 0x05F5E100#32),
     (0x800000#24, 30, 0x40000000#32), (0xFFFFFF#24, 30, 0x7FFFFF80#32)].all
      (fun v => barrelShift v.1 v.2.1 == v.2.2) = true := by decide

/-- 95 section 2.4: the sign applicator. -/
theorem test_applySign :
    [(0#1, 0x00000001#32, (1 : Int)), (1#1, 0x00000001#32, -1), (1#1, 0x00000003#32, -3), (1#1, 0x00002710#32, -10000),
     (1#1, 0x00FFFFFF#32, -16777215), (1#1, 0x40000000#32, -1073741824), (0#1, 0x7FFFFF80#32, 2147483520),
     (1#1, 0x7FFFFF80#32, -2147483520)].all (fun v => (applySign v.1 v.2.1).toInt == v.2.2) = true := by decide

/-- 95 section 2.5: rows of V-IN at the bounds of each shift, with both signs. -/
theorem test_in_range :
    [(0x3FFFFFFF#32, (1 : Int)), (0xBFFFFFFF#32, -1), (0xC0200000#32, -2), (0x42F6E979#32, 123), (0xC61C4000#32, -10000),
     (0xCAFFFFFF#32, -8388607), (0x4B000001#32, 8388609), (0xCB7FFFFF#32, -16777215), (0xCB800001#32, -16777218),
     (0x4CBEBC20#32, 100000000), (0xCE800000#32, -1073741824), (0x4EFFFFFE#32, 2147483392), (0xCEFFFFFF#32, -2147483520)].all
      (fun v => (ftoi v.1).toInt == v.2 && (datapath v.1).toInt == v.2) = true := by decide

/-- 95 section 2.5: the edges of V-Z, V-SM, V-SP and V-OV; true stands for the sentinel, false for 0. -/
theorem test_constant_classes :
    [(0x80000000#32, false), (0x80000001#32, false), (0x807FFFFF#32, false), (0x80800000#32, false), (0xBF7FFFFF#32, false),
     (0x3F7FFFFF#32, false), (0x7F800001#32, true), (0xFFFFFFFF#32, true), (0xCF000000#32, true), (0x4F000001#32, true),
     (0x7F7FFFFF#32, true), (0xFF7FFFFF#32, true)].all
      (fun v => ftoi v.1 == if v.2 then 0x80000000#32 else 0x00000000#32) = true := by decide

/-- R63's table: each class at the upper end of its range. -/
theorem test_classes :
    [0x00000000#32, 0x007FFFFF#32, 0x7FFFFFFF#32, 0x3F7FFFFF#32, 0x4B7FFFFF#32, 0x4EFFFFFF#32, 0x7F7FFFFF#32].map classify =
      [.pzero, .denorm, .special, .small, .inrangeRight, .inrangeLeft, .ovf] := by decide

/-! ## Witnesses: each statement's hypotheses can be met together -/

theorem witness_StepRunsDecodedInstruction :
    ((demo 0x3F800000#32).stimulus = ⟨linesOfWord 0x3F800000#32, .untilSettled⟩ :: [] ∧
      decode (linesOfWord 0x3F800000#32) = .ok (.ftoi 0#1 127#8 0#23) ∧ Hold.untilSettled.stabilityAfter ((demo 0x3F800000#32).stabilityOf 0x3F800000#32) = .settled) ∧
    State.reset.stimulus = [] := by decide

theorem witness_FetchWordRunsTableWord : (0xFFFFFFFF : Nat) < 2 ^ 32 ∧ (0 : Nat) < 2 ^ 32 := by decide

theorem witness_PresentedWordCompletes :
    (demo 0xFFFFFFFF#32).stimulus = ⟨linesOfWord 0xFFFFFFFF#32, .untilSettled⟩ :: [] := rfl

theorem witness_StepsIgnoreHistory :
    (demo 0x4F000000#32).stimulus = ⟨linesOfWord 0x4F000000#32, .untilSettled⟩ :: [] ∧
    (State.reset.withFetchWord 32 0x4F000000).stimulus = ⟨linesOfWord 0x4F000000#32, .untilSettled⟩ :: [] ∧
    (∃ s' t', step (demo 0x4F000000#32) = .next s' ∧ step (State.reset.withFetchWord 32 0x4F000000) = .next t' ∧
      s'.stability = .settled ∧ t'.stability = .settled) := ⟨rfl, by decide, _, _, rfl, rfl, rfl, rfl⟩

theorem witness_HeldInputSettles : ({ demo 0#32 with stimulus := [] } : State).stimulus = [] := rfl

theorem witness_SettledHeldStateIsFixed :
    State.reset.stimulus = [] ∧ State.reset.stability = .settled ∧ Consistent State.reset :=
  ⟨rfl, rfl, fun _ => rfl⟩

/-- R43, R155: 1.0 is sampled while `uf` is changing to it; and a settled word is presented again. -/
theorem witness_EarlySampleSeesFreeValue :
    ({ demo 0#32 with stimulus := [⟨linesOfWord 0x3F800000#32, .whileChanging⟩] } : State).stimulus =
      ⟨linesOfWord 0x3F800000#32, .whileChanging⟩ :: [] ∧
    decode (linesOfWord 0x3F800000#32) = .ok (.ftoi 0#1 127#8 0#23) ∧
    Hold.whileChanging.stabilityAfter ((demo 0#32).stabilityOf (encode (.ftoi 0#1 127#8 0#23))) = .stableFor 0 ∧
    0x3F800000#32 ≠ (demo 0#32).uf ∧ State.reset.stability = .settled := by decide

/-- Each clause: another word than the one on `uf`; the word there, not settled; the word there, settled. -/
theorem witness_StableTimeAddsUp :
    ({ demo 0#32 with stimulus := [⟨linesOfWord 0x3F800000#32, .sampledAfter 0⟩] } : State).stimulus =
      ⟨linesOfWord 0x3F800000#32, .sampledAfter 0⟩ :: [] ∧ 0x3F800000#32 ≠ (demo 0#32).uf ∧
    0xFFFFFFFF#32 = (demo 0#32).uf ∧ (demo 0#32).stability = .stableFor 0 ∧
    0x00000000#32 = State.reset.uf ∧ State.reset.stability = .settled := by decide

theorem witness_StepKeepsUnsettledRecent :
    UnsettledIsRecent (demo 0x3F800000#32) ∧ step (demo 0x3F800000#32) =
      .next { uf := 0x3F800000#32, result := 0x00000001#32, stability := .settled, stimulus := [], draws := 5 } :=
  ⟨fun e h => by cases h; exact .inl rfl, rfl⟩

theorem witness_IllDrivenInputRefused :
    (∃ l ∈ (Level.metastable :: List.replicate 31 .low), l.isBinary = false) ∧
    (Level.metastable :: List.replicate 31 .low).length = 32 ∧ (List.replicate 33 Level.high).length ≠ 32 ∧
    (List.replicate 31 Level.high).length ≠ 32 := by decide

theorem witness_StepKeepsConsistency :
    Consistent (demo 0x3F800000#32) ∧ step (demo 0x3F800000#32) =
      .next { uf := 0x3F800000#32, result := 0x00000001#32, stability := .settled, stimulus := [], draws := 5 } :=
  ⟨fun h => by simp [demo] at h, rfl⟩

theorem witness_StepKeepsContract :
    HonoursContract (demo 0x3F800000#32) ∧ step (demo 0x3F800000#32) =
      .next { uf := 0x3F800000#32, result := 0x00000001#32, stability := .settled, stimulus := [], draws := 5 } :=
  ⟨fun h => by simp [demo] at h, rfl⟩

theorem witness_Dutiful : Dutiful (demo 0x3F800000#32) ∧ (demo 0x3F800000#32).stimulus ≠ [] := by
  refine ⟨fun line h => ?_, by decide⟩
  rw [List.mem_singleton.1 h]; decide

theorem witness_StepKeepsDuty :
    Dutiful (demo 0x3F800000#32) ∧ step (demo 0x3F800000#32) =
      .next { uf := 0x3F800000#32, result := 0x00000001#32, stability := .settled, stimulus := [], draws := 5 } :=
  ⟨witness_Dutiful.1, rfl⟩

theorem witness_InstancesDoNotInteract :
    [State.reset, demo 0x3F800000#32][1]? = some (demo 0x3F800000#32) ∧ step (demo 0x3F800000#32) =
      .next { uf := 0x3F800000#32, result := 0x00000001#32, stability := .settled, stimulus := [], draws := 5 } ∧
    (0 : Nat) ≠ 1 := ⟨rfl, rfl, by decide⟩

theorem witness_DecodeEncodeRoundTrip : (Instr.ftoi 1#1 255#8 0x7FFFFF#23).wellFormed = true := rfl

theorem witness_EncodeDecodeRoundTrip :
    decode (List.replicate 32 .high) = .ok (.ftoi 1#1 255#8 0x7FFFFF#23) := by decide

theorem witness_DecoderAcceptsExactlyWellDriven :
    (List.replicate 31 Level.low).length ≠ 32 ∧ (Level.unknown :: List.replicate 31 .low).length = 32 ∧
    (∃ l ∈ (Level.unknown :: List.replicate 31 .low), l.isBinary = false) := by decide

/-- SPECIAL, DENORM, SMALL and OVF at both ends of their ranges. -/
theorem witness_detectors :
    isSpecial (bexpField 0x7F800000#32) = true ∧ isSpecial (bexpField 0xFFFFFFFF#32) = true ∧
    isDenorm (bexpField 0x00000000#32) = true ∧ isDenorm (bexpField 0x807FFFFF#32) = true ∧
    isSmall (exponentOf 0x00000000#32) = true ∧ isSmall (exponentOf 0xBF7FFFFF#32) = true ∧
    isOvf (exponentOf 0x4F000000#32) = true ∧ isOvf (exponentOf 0xFFFFFFFF#32) = true := by decide

theorem witness_UnbiasedExponentIsExact :
    1 ≤ (bexpField 0x00800000#32).toNat ∧ (bexpField 0x00800000#32).toNat ≤ 254 ∧
    1 ≤ (bexpField 0x7F7FFFFF#32).toNat ∧ (bexpField 0x7F7FFFFF#32).toNat ≤ 254 := by decide

/-- `e` = 24 and 30 for the left path, 0 and 23 for the right. -/
theorem witness_shift_paths :
    (24 ≤ exponentOf 0x4B800000#32 ∧ exponentOf 0x4EFFFFFF#32 ≤ 30) ∧
    (0 ≤ exponentOf 0x3F800000#32 ∧ exponentOf 0x4B000000#32 = 23) := by decide

theorem witness_UnusedShifterOutputIsInvisible :
    ¬(0 ≤ exponentOf 0x3F7FFFFF#32 ∧ exponentOf 0x3F7FFFFF#32 ≤ 30) ∧
    ¬(0 ≤ exponentOf 0x4F000000#32 ∧ exponentOf 0x4F000000#32 ≤ 30) := by decide

theorem witness_SignApplicatorNegates :
    1 ≤ (0x00000001#32).toNat ∧ (0x7FFFFF80#32).toNat ≤ 2 ^ 31 - 2 ^ 7 := by decide

theorem witness_DetectorOrderIrrelevant :
    (detectors 0x00000000#32).reverse.Perm (detectors 0x00000000#32) ∧ isPzero 0x00000000#32 = true ∧
    isSpecial (bexpField 0x7FC00000#32) = true ∧ 0 ≤ exponentOf 0x3F800000#32 ∧ exponentOf 0x4EFFFFFF#32 ≤ 30 :=
  ⟨List.reverse_perm _, by decide⟩

theorem witness_UsedPathRanges :
    0 ≤ exponentOf 0x3F800000#32 ∧ exponentOf 0x3F800000#32 ≤ 30 ∧ 0 ≤ exponentOf 0x4EFFFFFF#32 ∧
    exponentOf 0x4EFFFFFF#32 ≤ 30 := by decide

theorem witness_NegativeFractionsGiveZero :
    0x80000000 ≤ (0x80000000#32).toNat ∧ (0xBF7FFFFF#32).toNat ≤ 0xBF7FFFFF := by decide

theorem realValue_one : realValue 0x3F800000#32 = 1 := by norm_num [realValue, BitVec.toNat_ofNat]

theorem realValue_two_pow_31 : realValue 0x4F000000#32 = 2 ^ 31 := by norm_num [realValue, BitVec.toNat_ofNat]

theorem realValue_minimum : realValue 0xCF000000#32 = -2 ^ 31 := by norm_num [realValue, BitVec.toNat_ofNat]

/-- Both branches of the contract: 1.0 is in its range, 2^31 is finite and is not. -/
theorem witness_MeetsContract :
    (IsFinite 0x3F800000#32 ∧ |truncate (realValue 0x3F800000#32)| < 2 ^ 31) ∧
    (IsFinite 0x4F000000#32 ∧ ¬|truncate (realValue 0x4F000000#32)| < 2 ^ 31) := by
  refine ⟨⟨by unfold IsFinite; decide, ?_⟩, by unfold IsFinite; decide, ?_⟩
  · rw [realValue_one]; norm_num [truncate]
  · rw [realValue_two_pow_31]; norm_num [truncate]

theorem witness_RoundingIsTowardZero :
    IsFinite 0x3F800000#32 ∧ |truncate (realValue 0x3F800000#32)| < 2 ^ 31 := witness_MeetsContract.1

theorem witness_MinimumIntegerIsExact :
    IsFinite 0xCF000000#32 ∧ truncate (realValue 0xCF000000#32) = -2 ^ 31 := by
  refine ⟨by unfold IsFinite; decide, ?_⟩
  rw [realValue_minimum]; norm_num [truncate]

theorem witness_ExactIntegersRoundTrip :
    (|(1 : ℤ)| < 2 ^ 31 ∧ IsFinite 0x3F800000#32 ∧ realValue 0x3F800000#32 = (1 : ℤ)) ∧
    |(2 : ℤ) ^ 24| ≤ 2 ^ 24 ∧ |-(2 : ℤ) ^ 24| ≤ 2 ^ 24 := by
  refine ⟨⟨by norm_num, by unfold IsFinite; decide, by rw [realValue_one]; norm_num⟩, by norm_num, by norm_num⟩

theorem witness_SignSymmetry :
    (127 ≤ (bexpField 0x3F800000#32).toNat ∧ (bexpField 0x3F800000#32).toNat ≤ 157) ∧
    (127 ≤ (bexpField 0x4EFFFFFF#32).toNat ∧ (bexpField 0x4EFFFFFF#32).toNat ≤ 157) ∧
    ¬(127 ≤ (bexpField 0x3F7FFFFF#32).toNat ∧ (bexpField 0x3F7FFFFF#32).toNat ≤ 157) ∧
    ¬(127 ≤ (bexpField 0x4F000000#32).toNat ∧ (bexpField 0x4F000000#32).toNat ≤ 157) := by decide

theorem witness_ExactnessByExponent :
    (23 ≤ exponentOf 0x4B000000#32 ∧ exponentOf 0x4EFFFFFF#32 ≤ 30) ∧
    (0 ≤ exponentOf 0x3F800000#32 ∧ exponentOf 0x4AFFFFFF#32 ≤ 22) := by decide

end Sys2Proof.Tests
end

/-! ## Encoding: what every input word selects, and that it completes -/

namespace Sys2Proof.Machine

/-- The instruction that a word selects puts that word back on `uf` and settles on FTOI of it, from every state. -/
theorem exec_decodeWord (uf : Word) (s : State) : exec (decodeWord uf) s = .next (s.settleOn uf (ftoi uf)) := by
  rw [exec_eq, encode_decodeWord]

/-- Settles O19: the decoder answers the word's own three fields, and each field is the number R60's layout gives it. -/
theorem everyWordSelectsFtoi : Obligations.EveryWordSelectsFtoi := by
  intro uf
  have hdecode : decode (linesOfWord uf) = .ok (.ftoi (signField uf) (bexpField uf) (fracField uf)) :=
    decode_linesOfWord uf
  exact ⟨signField uf, bexpField uf, fracField uf, hdecode, signField_toNat uf, bexpField_toNat uf, fracField_toNat uf⟩

/-- Settles O4: the instruction is the one that the word selects. -/
theorem everyInputWordCompletes : Obligations.EveryInputWordCompletes := fun uf s =>
  ⟨decodeWord uf, decode_linesOfWord uf, exec_decodeWord uf s⟩

end Sys2Proof.Machine

/-! ## FTOI: the detectors, the sub-blocks, and the operation they make up -/

namespace Sys2Proof.Machine

open Safety

/-! ### What an evaluation gives -/

/-- An evaluation gives the port function of its word, so `Gives` is a fact about `ftoi` alone. -/
theorem gives_of_ftoi_eq {uf r : Word} (h : ftoi uf = r) : Gives uf r := fun s => h ▸ exec_decodeWord uf s

/-- Settles O6: each run settles on the same word and the same value of the port function. -/
theorem evaluationReadsOnlyInput : Obligations.EvaluationReadsOnlyInput := fun i s t =>
  ⟨_, _, exec_eq i s, exec_eq i t, rfl, rfl, rfl, rfl, rfl, rfl, rfl, rfl, rfl⟩

/-! ### The exponent, the mantissa and the shifter -/

theorem exponentOf_eq (uf : Word) : exponentOf uf = (uf.toNat / 2 ^ 23 % 2 ^ 8 : ℕ) - 127 := by
  rw [exponentOf, unbiasedExponent, bexpField_toNat]

/-- Settles O28: the bounds are those of the 8-bit biased exponent, and they lie inside the 9-bit signed range. -/
theorem unbiasedExponentIsExact : Obligations.UnbiasedExponentIsExact := by
  intro uf
  have he := exponentOf_eq uf
  have hlow : -127 ≤ exponentOf uf := by omega
  have hhigh : exponentOf uf ≤ 128 := by omega
  refine ⟨he, hlow, hhigh, fun h1 h254 => ?_, BitVec.toInt_ofInt_eq_self (by decide) (by omega) (by omega)⟩
  rw [bexpField_toNat] at h1 h254
  omega

/-- Settles O29: as numbers, appending below the leading 1 is adding to 2^23, and so is OR with that bit. -/
theorem mantissaRestoresLeadingOne : Obligations.MantissaRestoresLeadingOne := by
  intro frac
  have hm := mantissa_toNat frac
  have hf := frac.isLt
  refine ⟨by omega, by omega, by omega, BitVec.eq_of_toNat_eq ?_⟩
  have hor : 2 ^ 23 + frac.toNat = 2 ^ 23 ||| frac.toNat := Nat.two_pow_add_eq_or_of_lt hf 1
  rw [hm, hor, Nat.or_comm, BitVec.toNat_or, BitVec.toNat_setWidth_of_le (by decide)]
  rfl

/-- On the used path the shifter is one of two shifts, the direction decided by the exponent (R90). -/
theorem barrelShift_used (m : BitVec 24) {e : Int} (h0 : 0 ≤ e) (h30 : e ≤ 30) :
    barrelShift m e = if 23 < e then m.setWidth 32 <<< (e - 23).toNat else m.setWidth 32 >>> (23 - e).toNat := by
  rw [barrelShift, if_pos ⟨h0, h30⟩]
  by_cases h : 23 < e <;> simp [shiftAmount, shiftsLeft, h]

/-- Settles O33: the direction is right, so the shifter is the right shift, a floor division. -/
theorem rightPathTruncates : Obligations.RightPathTruncates := by
  intro m e h0 h23
  have hright : ¬ 23 < e := by omega
  have hdirection : shiftsLeft e = false := Bool.eq_false_iff.2 (mt (shiftsLeft_iff e).1 hright)
  have hshift : barrelShift m e = m.setWidth 32 >>> (23 - e).toNat := by
    rw [barrelShift_used m h0 (by omega), if_neg hright]
  refine ⟨hdirection, ?_, hshift, barrelShift_right_toNat m h0 h23, ?_⟩
  · rw [shiftAmount, hdirection]
    exact Int.toNat_of_nonneg (by omega)
  · rintro rfl
    exact hshift

/-! ### The guard and the mux -/

/-- Bit 31 of a word is set from 2^31 on. -/
theorem getLsbD_31_iff (val : Word) : val.getLsbD 31 = true ↔ 2 ^ 31 ≤ val.toNat := by
  simpa [BitVec.msb_eq_getLsbD_last] using congrArg (· = true) (BitVec.msb_eq_decide val)

/-- Settles O36: with no detector set the mux is the guard's own choice. -/
theorem guardTestsPositivePathOnly : Obligations.GuardTestsPositivePathOnly := by
  intro s val
  have hguard : guardFires s val = true ↔ s = 0#1 ∧ 2 ^ 31 ≤ val.toNat := by
    rw [guardFires_iff, getLsbD_31_iff]
  have hmux : saturationMux false false false false false (guardFires s val) val =
      if guardFires s val = true then sentinel else val := rfl
  exact ⟨hguard, by rw [hmux]; simp only [hguard]; rfl⟩

/-- Settles O37: the mux is the chain of tests that the priority list unfolds to. -/
theorem saturationMuxPriority : Obligations.SaturationMuxPriority := fun _ _ _ _ _ _ _ => rfl

/-- The early exits of R80's pseudocode and the mux over all conditions at once are one chain of tests (R81). -/
theorem ftoi_eq_datapath (uf : Word) : ftoi uf = datapath uf := rfl

/-- The operation selects the first true condition, the guard last. -/
theorem ftoi_eq_firstMatch (uf : Word) : ftoi uf =
    firstMatch (valOf uf) (detectors uf ++ [(guardFires (signField uf) (valOf uf), 0x80000000#32)]) :=
  (ftoi_eq_datapath uf).trans (saturationMuxPriority _ _ _ _ _ _ _)

/-- Settles O38: the pseudocode, the priority list and the five sub-blocks are the same function. -/
theorem datapathComputesFtoi : Obligations.DatapathComputesFtoi := fun uf =>
  ⟨gives_of_ftoi_eq (ftoi_eq_firstMatch uf), gives_of_ftoi_eq (ftoi_eq_datapath uf)⟩

/-! ### When each detector fires, and how the detectors overlap (R97) -/

theorem isSpecial_bexpField_iff (uf : Word) :
    isSpecial (bexpField uf) = true ↔ uf.toNat / 2 ^ 23 % 2 ^ 8 = 255 := by rw [isSpecial_iff, bexpField_toNat]

theorem isDenorm_bexpField_iff (uf : Word) :
    isDenorm (bexpField uf) = true ↔ uf.toNat / 2 ^ 23 % 2 ^ 8 = 0 := by rw [isDenorm_iff, bexpField_toNat]

theorem isSmall_exponentOf_iff (uf : Word) :
    isSmall (exponentOf uf) = true ↔ uf.toNat / 2 ^ 23 % 2 ^ 8 ≤ 126 := by
  rw [isSmall_iff, exponentOf_eq]; omega

theorem isOvf_exponentOf_iff (uf : Word) :
    isOvf (exponentOf uf) = true ↔ 158 ≤ uf.toNat / 2 ^ 23 % 2 ^ 8 := by
  rw [isOvf_iff, exponentOf_eq]; omega

theorem isDenorm_of_isPzero {uf : Word} (h : isPzero uf = true) : isDenorm (bexpField uf) = true := by
  rw [(isPzero_iff uf).1 h]; decide

theorem isSmall_of_isDenorm {uf : Word} (h : isDenorm (bexpField uf) = true) : isSmall (exponentOf uf) = true := by
  rw [isDenorm_bexpField_iff] at h; rw [isSmall_exponentOf_iff]; omega

theorem isOvf_of_isSpecial {uf : Word} (h : isSpecial (bexpField uf) = true) : isOvf (exponentOf uf) = true := by
  rw [isSpecial_bexpField_iff] at h; rw [isOvf_exponentOf_iff]; omega

/-- No magnitude is both below 1 and 2^31 or more. -/
theorem isSmall_eq_false_of_isOvf {uf : Word} (h : isOvf (exponentOf uf) = true) : isSmall (exponentOf uf) = false := by
  rw [isOvf_exponentOf_iff] at h; rw [Bool.eq_false_iff, Ne, isSmall_exponentOf_iff]; omega

theorem isDenorm_eq_false_of_isOvf {uf : Word} (h : isOvf (exponentOf uf) = true) : isDenorm (bexpField uf) = false :=
  Bool.eq_false_iff.2 fun hd => Bool.eq_false_iff.1 (isSmall_eq_false_of_isOvf h) (isSmall_of_isDenorm hd)

theorem isPzero_eq_false_of_isOvf {uf : Word} (h : isOvf (exponentOf uf) = true) : isPzero uf = false :=
  Bool.eq_false_iff.2 fun hz => Bool.eq_false_iff.1 (isDenorm_eq_false_of_isOvf h) (isDenorm_of_isPzero hz)

theorem isSpecial_eq_false_of_isSmall {uf : Word} (h : isSmall (exponentOf uf) = true) :
    isSpecial (bexpField uf) = false :=
  Bool.eq_false_iff.2 fun hs => Bool.eq_false_iff.1 (isSmall_eq_false_of_isOvf (isOvf_of_isSpecial hs)) h

/-! ### The constant outputs: 0 below 1, the sentinel from 2^31 on -/

/-- Before the small-magnitude test only the special-value test could select anything but 0. -/
theorem ftoi_of_isSmall {uf : Word} (h : isSmall (exponentOf uf) = true) : ftoi uf = 0x00000000#32 := by
  have hspecial := isSpecial_eq_false_of_isSmall h
  rw [ftoi_eq_firstMatch]
  simp [firstMatch, detectors, h, hspecial]

/-- Before the overflow test only the special-value test can fire, which selects the sentinel too. -/
theorem ftoi_of_isOvf {uf : Word} (h : isOvf (exponentOf uf) = true) : ftoi uf = 0x80000000#32 := by
  have hpzero := isPzero_eq_false_of_isOvf h
  have hdenorm := isDenorm_eq_false_of_isOvf h
  have hsmall := isSmall_eq_false_of_isOvf h
  rw [ftoi_eq_firstMatch]
  simp [firstMatch, detectors, h, hpzero, hdenorm, hsmall]

/-- Settles O30: the detector decides before the sign is looked at. -/
theorem smallMagnitudesGiveZero : Obligations.SmallMagnitudesGiveZero := fun uf =>
  ⟨isSmall_exponentOf_iff uf, fun h => gives_of_ftoi_eq (ftoi_of_isSmall h)⟩

/-- Settles O31: the detector decides before the sign is looked at, so −2^31 gives the sentinel as well. -/
theorem overflowGivesSentinel : Obligations.OverflowGivesSentinel := by
  have hovf (uf : Word) (h : isOvf (exponentOf uf) = true) : Gives uf 0x80000000#32 :=
    gives_of_ftoi_eq (ftoi_of_isOvf h)
  have hminimum : isOvf (exponentOf 0xCF000000#32) = true := by decide
  exact ⟨fun uf => ⟨isOvf_exponentOf_iff uf, hovf uf⟩, hminimum, hovf _ hminimum⟩

/-- Settles O27: a biased exponent of 0 is a magnitude below 1. -/
theorem denormalsGiveZero : Obligations.DenormalsGiveZero := fun uf =>
  ⟨isDenorm_bexpField_iff uf, fun h => gives_of_ftoi_eq (ftoi_of_isSmall (isSmall_of_isDenorm h))⟩

/-- Settles O25: both zeros have a biased exponent of 0, so negative zero gives 0 without this detector. -/
theorem zeroDetectorIsLiteral : Obligations.ZeroDetectorIsLiteral := by
  have hzero (uf : Word) (h : isDenorm (bexpField uf) = true) : Gives uf 0x00000000#32 :=
    (denormalsGiveZero uf).2 h
  exact ⟨isPzero_iff, hzero _ (by decide), by decide, hzero _ (by decide)⟩

/-- AND works on each field of two words by itself. -/
theorem packFields_and (s s' : BitVec 1) (bexp bexp' : BitVec 8) (frac frac' : BitVec 23) :
    packFields s bexp frac &&& packFields s' bexp' frac' =
      packFields (s &&& s') (bexp &&& bexp') (frac &&& frac') := by
  rw [packFields, packFields, BitVec.and_append, BitVec.and_append, packFields]

/-- The source's mask keeps the biased exponent of a word and clears its other two fields. -/
theorem and_exponentMask (uf : Word) : uf &&& 0x7F800000#32 = packFields 0#1 (bexpField uf) 0#23 :=
  calc uf &&& 0x7F800000#32
    _ = packFields (signField uf) (bexpField uf) (fracField uf) &&& packFields 0#1 (BitVec.allOnes 8) 0#23 := by
      rw [packFields_fields]; rfl
    _ = packFields 0#1 (bexpField uf) 0#23 := by
      rw [packFields_and, BitVec.and_zero, BitVec.and_allOnes, BitVec.and_zero]

/-- The mask test of R84 and the comparison with 255 are one test. -/
theorem and_exponentMask_eq_iff (uf : Word) :
    uf &&& 0x7F800000#32 = 0x7F800000#32 ↔ (bexpField uf).toNat = 255 := by
  have hmask : 0x7F800000#32 = packFields 0#1 255#8 0#23 := by decide
  rw [and_exponentMask]
  constructor
  · intro h
    have hfield := congrArg bexpField (h.trans hmask)
    rw [bexpField_packFields, bexpField_packFields] at hfield
    rw [hfield]; rfl
  · intro h
    have hfield : bexpField uf = 255#8 := BitVec.eq_of_toNat_eq h
    rw [hfield]; exact hmask.symm

/-- Settles O26: a biased exponent of 255 is a magnitude of 2^31 or more, which is not the zero pattern's. -/
theorem specialValuesGiveSentinel : Obligations.SpecialValuesGiveSentinel := fun uf =>
  ⟨(isSpecial_iff _).trans (and_exponentMask_eq_iff uf).symm, isSpecial_bexpField_iff uf, fun h =>
    ⟨isPzero_eq_false_of_isOvf (isOvf_of_isSpecial h), gives_of_ftoi_eq (ftoi_of_isOvf (isOvf_of_isSpecial h))⟩⟩

/-! ### The pseudocode -/

/-- The port function of a word in its three fields, with each test written as R80 has it. -/
theorem ftoi_packFields (s : BitVec 1) (bexp : BitVec 8) (frac : BitVec 23) :
    ftoi (packFields s bexp frac) =
      if packFields s bexp frac = 0x00000000#32 then 0x00000000#32
      else if bexp.toNat = 255 then sentinel
      else if bexp.toNat = 0 then 0x00000000#32
      else if unbiasedExponent bexp < 0 then 0x00000000#32
      else if 31 ≤ unbiasedExponent bexp then sentinel
      else if s = 0#1 ∧ (applySign s (barrelShift (mantissa frac) (unbiasedExponent bexp))).getLsbD 31 = true
        then sentinel
      else applySign s (barrelShift (mantissa frac) (unbiasedExponent bexp)) := by
  simp only [ftoi, signField_packFields, bexpField_packFields, fracField_packFields, isPzero_iff, isSpecial_iff,
    isDenorm_iff, isSmall_iff, isOvf_iff, guardFires_iff]

/-- Settles O1: wherever the five detectors let the value through, the shifter is on its used path, where it is the
pseudocode's shift. -/
theorem execFtoiFollowsAlgorithm : Obligations.ExecFtoiFollowsAlgorithm := by
  intro s bexp frac st uf e m mag val result
  have hresult : ftoi (packFields s bexp frac) = result := by
    rw [ftoi_packFields]
    refine ite_congr rfl (fun _ => rfl) fun _ => ite_congr rfl (fun _ => rfl) fun _ => ite_congr rfl (fun _ => rfl)
      fun _ => ite_congr rfl (fun _ => rfl) fun hsmall => ite_congr rfl (fun _ => rfl) fun hovf => ?_
    have hmag : barrelShift (mantissa frac) (unbiasedExponent bexp) = mag :=
      barrelShift_used m (e := e) (by omega) (by omega)
    rw [hmag]
    rfl
  rw [exec_eq, encode, hresult]
  rfl

end Sys2Proof.Machine

/-! ## The decoder: what it accepts, and encoding as its inverse -/

namespace Sys2Proof

theorem wellDriven_iff (lines : List Level) :
    wellDriven lines = true ↔ lines.length = 32 ∧ ∀ l ∈ lines, l.isBinary = true := by
  simp [wellDriven]

theorem wellDriven_linesOfWord (w : Word) : wellDriven (linesOfWord w) = true :=
  (wellDriven_iff _).2 ⟨linesOfNat_length _ _, linesOfNat_isBinary _ _⟩

/-- The lines a dutiful environment drives are the lines of some word. -/
theorem exists_linesOfWord_of_wellDriven {lines : List Level} (h : wellDriven lines = true) :
    ∃ w, lines = linesOfWord w := by
  obtain ⟨hlength, hbinary⟩ := (wellDriven_iff lines).1 h
  obtain ⟨n, -, hlt, hback⟩ := numberOfLines_of_isBinary lines hbinary
  rw [hlength] at hlt hback
  exact ⟨BitVec.ofNat 32 n, by rw [linesOfWord, BitVec.toNat_ofNat, Nat.mod_eq_of_lt hlt, hback]⟩

theorem decode_of_length_ne {lines : List Level} (h : lines.length ≠ 32) :
    decode lines = .error (.wrongWidth lines.length) := if_neg h

theorem decode_of_not_isBinary {lines : List Level} (hlength : lines.length = 32)
    (h : ∃ l ∈ lines, l.isBinary = false) : decode lines = .error .nonBinary := by
  rw [decode, if_pos hlength, numberOfLines_of_not_isBinary lines h]

/-- The width and the levels of the lines decide between the decoder's three answers. -/
theorem lines_cases (lines : List Level) :
    (∃ w, lines = linesOfWord w) ∨ lines.length ≠ 32 ∨ (lines.length = 32 ∧ ∃ l ∈ lines, l.isBinary = false) := by
  by_cases hlength : lines.length = 32
  · by_cases hbinary : ∀ l ∈ lines, l.isBinary = true
    · exact .inl (exists_linesOfWord_of_wellDriven ((wellDriven_iff lines).2 ⟨hlength, hbinary⟩))
    · exact .inr (.inr ⟨hlength, by simpa using hbinary⟩)
  · exact .inr (.inl hlength)

theorem decode_encodeLines (i : Instr) : decode (encodeLines i) = .ok i := by
  have hfields : decodeWord (encode i) = i := by
    cases i; exact Laws.Fields.ftoi ..
  rw [encodeLines, decode_linesOfWord, hfields]

/-- The decoder answers an instruction on that instruction's own lines and on no others. -/
theorem decode_eq_ok_iff {lines : List Level} {i : Instr} : decode lines = .ok i ↔ encodeLines i = lines := by
  constructor
  · intro h
    rcases lines_cases lines with ⟨w, rfl⟩ | hlength | ⟨hlength, hbinary⟩
    · rw [decode_linesOfWord] at h
      cases h
      rw [encodeLines, encode_decodeWord]
    · rw [decode_of_length_ne hlength] at h; cases h
    · rw [decode_of_not_isBinary hlength hbinary] at h; cases h
  · rintro rfl
    exact decode_encodeLines i

/-- Settles O20: the decoder reads the encoded word back, and no field is displaced in it. -/
theorem decodeEncodeRoundTrip : Obligations.DecodeEncodeRoundTrip := fun i _ => decode_encodeLines i

/-- Settles O21: an instruction is decoded from its own lines alone. -/
theorem encodeDecodeRoundTrip : Obligations.EncodeDecodeRoundTrip := fun _ _ h => decode_eq_ok_iff.1 h

/-- Settles O22: accepted lines are an encoding, whose 32 lines are two-valued; the rejections go by the cause. -/
theorem decoderAcceptsExactlyWellDriven : Obligations.DecoderAcceptsExactlyWellDriven := by
  refine fun lines => ⟨⟨?_, fun h => ?_⟩, decode_of_length_ne, decode_of_not_isBinary⟩
  · rintro ⟨i, h⟩
    rw [← decode_eq_ok_iff.1 h]
    exact wellDriven_linesOfWord _
  · obtain ⟨w, rfl⟩ := exists_linesOfWord_of_wellDriven h
    exact ⟨_, decode_linesOfWord w⟩

/-- Settles O23: the decoder answers each word's three fields, which are then read off. -/
theorem specWordsDecode : Obligations.SpecWordsDecode := by
  refine ⟨?_, ?_, ?_, ?_⟩ <;> rw [decode_linesOfWord] <;> decide

end Sys2Proof

/-! ## The step: what it answers on each kind of line -/

namespace Sys2Proof.Machine

open Safety

theorem fetch_of_nil {s : State} (h : s.stimulus = []) : fetch s = (⟨linesOfWord s.uf, .untilSettled⟩, s) := by
  rw [fetch, h]

theorem fetch_of_cons {s : State} {line : Stimulus} {rest : List Stimulus} (h : s.stimulus = line :: rest) :
    fetch s = (line, { s with stimulus := rest }) := by
  rw [fetch, h]

/-- A step takes the first line off the stimulus, where there is one. -/
theorem fetch_stimulus (s : State) : (fetch s).2.stimulus = s.stimulus.tail := by
  rcases fetch_cases s with ⟨hnil, h⟩ | ⟨line, rest, hcons, h⟩
  · simp [h, hnil]
  · simp [h, hcons]

theorem step_of_nil {s : State} (h : s.stimulus = []) : step s = exec (decodeWord s.uf) s := by
  simp [step, fetch_of_nil h]

section Line

variable {s : State} {line : Stimulus} {rest : List Stimulus} (hline : s.stimulus = line :: rest)

include hline

theorem step_of_decode_error {e : DecodeError} (hd : decode line.lines = .error e) :
    step s = .refused (refusalOf e) := by
  simp [step, fetch_of_cons hline, hd]

theorem step_of_settled {i : Instr} (hd : decode line.lines = .ok i)
    (hs : line.hold.stabilityAfter (s.stabilityOf (encode i)) = .settled) :
    step s = exec i { s with stimulus := rest } := by
  simp [step, fetch_of_cons hline, hd, hs]

theorem step_of_unsettled {i : Instr} {elapsed : Nat} (hd : decode line.lines = .ok i)
    (hs : line.hold.stabilityAfter (s.stabilityOf (encode i)) = .stableFor elapsed) :
    step s = .next (({ s with stimulus := rest } : State).sampleEarly (encode i) elapsed) := by
  simp [step, fetch_of_cons hline, hd, hs]

end Line

/-- Settles O2: the decoded instruction runs where its word has settled, and the held word where no line is left. -/
theorem stepRunsDecodedInstruction : Obligations.StepRunsDecodedInstruction :=
  ⟨fun _ _ _ _ hline => step_of_settled hline, fun _ => step_of_nil⟩

/-- A word that is held until its output settles is evaluated, whatever was on the port before. -/
theorem step_of_untilSettled {s : State} {uf : Word} {rest : List Stimulus}
    (h : s.stimulus = ⟨linesOfWord uf, .untilSettled⟩ :: rest) :
    step s = exec (decodeWord uf) { s with stimulus := rest } :=
  step_of_settled h (decode_linesOfWord uf) (stabilityAfter_untilSettled _)

/-- Settles O3: the table word is the next line, held until its output settles. -/
theorem fetchWordRunsTableWord : Obligations.FetchWordRunsTableWord := by
  intro s w hw
  have hword : tableWord 32 w = BitVec.ofNat 32 w := by rw [tableWord, Nat.mod_eq_of_lt hw]
  refine ⟨?_, ?_⟩
  · rw [decodeTableWord, if_pos le_rfl, hword, decode_linesOfWord]
  · rw [State.withFetchWord, hword]
    exact step_of_untilSettled (State.present_stimulus s _)

/-- Settles O5: the word's instruction runs, and it settles on FTOI of the word. -/
theorem presentedWordCompletes : Obligations.PresentedWordCompletes := fun _ uf _ h =>
  (step_of_untilSettled h).trans (exec_decodeWord uf _)

/-- Settles O8: the held word's instruction runs, and it settles on FTOI of that word. -/
theorem heldInputSettles : Obligations.HeldInputSettles := fun s h => (step_of_nil h).trans (exec_decodeWord s.uf s)

/-- Settles O9: the step writes to the ports what a consistent state already shows there. -/
theorem settledHeldStateIsFixed : Obligations.SettledHeldStateIsFixed := by
  intro s hstimulus hsettled hconsistent
  have hfixed : s.settleOn s.uf (ftoi s.uf) = s := State.settleOn_self s _ _ rfl (hconsistent hsettled) hsettled
  rw [step_of_nil hstimulus, exec_decodeWord, hfixed]

/-- Settles O10: a word other than the one on `uf` has been stable for 0, and a settled word stays settled. -/
theorem earlySampleSeesFreeValue : Obligations.EarlySampleSeesFreeValue := by
  refine ⟨fun _ _ _ _ _ hline => step_of_unsettled hline, fun s w hw => ?_, fun s hold hs => ?_⟩
  · rw [stabilityAfter_whileChanging, stabilityOf_changed hw]
  · rw [stabilityOf_self, hs, stabilityAfter_settled]

/-- Settles O11: the decoder rejects the lines by name, and the step is refused by the same name. -/
theorem illDrivenInputRefused : Obligations.IllDrivenInputRefused := fun _ _ _ hline =>
  ⟨fun hlength hbinary => step_of_decode_error hline (decode_of_not_isBinary hlength hbinary),
    fun hlength => step_of_decode_error hline (decode_of_length_ne hlength)⟩

/-- A word sampled after a delay is evaluated if the time it was stable before and the delay reach `T_PD`, and is
sampled early if they do not. -/
theorem step_of_sampledAfter {s : State} {w : Word} {elapsed delay : Nat} {rest : List Stimulus}
    (hline : s.stimulus = ⟨linesOfWord w, .sampledAfter delay⟩ :: rest) (hw : s.stabilityOf w = .stableFor elapsed) :
    step s = if Config.tPd ≤ elapsed + delay then .next (({ s with stimulus := rest } : State).settleOn w (ftoi w))
      else .next (({ s with stimulus := rest } : State).sampleEarly w (elapsed + delay)) := by
  have hstability : (Hold.sampledAfter delay).stabilityAfter (s.stabilityOf (encode (decodeWord w))) =
      if Config.tPd ≤ elapsed + delay then .settled else .stableFor (elapsed + delay) := by
    rw [encode_decodeWord, hw, stabilityAfter_sampledAfter]
  by_cases h : Config.tPd ≤ elapsed + delay
  · rw [if_pos h] at hstability ⊢
    rw [step_of_settled hline (decode_linesOfWord w) hstability, exec_decodeWord]
  · rw [if_neg h] at hstability ⊢
    rw [step_of_unsettled hline (decode_linesOfWord w) hstability, encode_decodeWord]

/-- Settles O52: another word starts at 0, the word on `uf` goes on from its own stable time, and a settled one stays
settled. -/
theorem stableTimeAddsUp : Obligations.StableTimeAddsUp := by
  intro s delay rest w hline
  refine ⟨fun hw => ?_, ?_, ?_⟩
  · rw [step_of_sampledAfter hline (stabilityOf_changed hw), Nat.zero_add]; rfl
  · rintro elapsed rfl hs
    exact step_of_sampledAfter hline ((stabilityOf_self s).trans hs)
  · rintro rfl hs
    have hsettled : (Hold.sampledAfter delay).stabilityAfter (s.stabilityOf (encode (decodeWord s.uf))) = .settled := by
      rw [encode_decodeWord, stabilityOf_self, hs, stabilityAfter_settled]
    rw [step_of_settled hline (decode_linesOfWord _) hsettled, exec_decodeWord, State.settleOn, hs]

/-! ### What every step keeps -/

theorem step_next_stimulus {s t : State} (h : step s = .next t) : t.stimulus = s.stimulus.tail := by
  rw [← fetch_stimulus]
  rcases step_next_cases h with ⟨i, -, -, rfl⟩ | ⟨i, elapsed, -, -, rfl⟩ <;> rfl

/-- A settled output after a step is FTOI of the word whose lines were on the port. -/
theorem step_next_settled {s t : State} (h : step s = .next t) (hs : t.stability = .settled) :
    ∃ i, decode (fetch s).1.lines = .ok i ∧ t.uf = encode i ∧ t.result = ftoi (encode i) := by
  rcases step_next_cases h with ⟨i, hd, -, rfl⟩ | ⟨i, elapsed, -, -, rfl⟩
  · exact ⟨i, hd, rfl, rfl⟩
  · cases hs

/-- A step leaves a consistent state, whatever state it started from. -/
theorem consistent_of_step {s t : State} (h : step s = .next t) : Consistent t := fun hs => by
  obtain ⟨i, -, huf, hresult⟩ := step_next_settled h hs
  rw [huf, hresult]

/-- Settles O13: a step that ends settled has evaluated the word that it left on `uf`. -/
theorem stepKeepsConsistency : Obligations.StepKeepsConsistency := fun _ _ _ h => consistent_of_step h

/-- Settles O7: the decoder's answer on the line decides the outcome, and the earlier state has no part in it. -/
theorem stepsIgnoreHistory : Obligations.StepsIgnoreHistory := by
  constructor
  · intro s t line restS restT hS hT hhold
    have hsettled (before : Stability) : line.hold.stabilityAfter before = .settled := by
      rw [hhold, stabilityAfter_untilSettled]
    cases hd : decode line.lines with
    | error e => exact .inl ⟨_, step_of_decode_error hS hd, step_of_decode_error hT hd⟩
    | ok i =>
      exact .inr ⟨_, _, (step_of_settled hS hd (hsettled _)).trans (exec_eq _ _),
        (step_of_settled hT hd (hsettled _)).trans (exec_eq _ _), rfl, rfl, rfl, rfl, rfl, rfl, rfl, rfl⟩
  · intro s t s' t' lineS lineT restS restT hS hT hlines hs ht hsettledS hsettledT
    obtain ⟨i, hi, hufS, hresultS⟩ := step_next_settled hs hsettledS
    obtain ⟨j, hj, hufT, hresultT⟩ := step_next_settled ht hsettledT
    rw [fetch_of_cons hS, hlines] at hi
    rw [fetch_of_cons hT, hi] at hj
    cases hj
    exact ⟨hufS.trans hufT.symm, hresultS.trans hresultT.symm⟩

/-- Settles O53: an unsettled word goes on from its own recent time, is new on the port, or was delayed for less than
`T_PD`. -/
theorem stepKeepsUnsettledRecent : Obligations.StepKeepsUnsettledRecent := by
  intro s t hrecent h elapsed' ht
  rcases step_next_cases h with ⟨i, -, -, rfl⟩ | ⟨i, elapsed, -, hs, rfl⟩
  · cases ht
  · cases ht
    obtain ⟨before, hbefore, ⟨-, rfl⟩ | ⟨delay, -, -, hlt⟩⟩ := stabilityAfter_eq_stableFor hs
    · by_cases hw : encode i = s.uf
      · rw [hw, stabilityOf_self] at hbefore
        exact hrecent _ hbefore
      · rw [stabilityOf_changed hw] at hbefore
        cases hbefore
        exact .inl rfl
    · exact .inr hlt

/-! ### The dutiful environment -/

/-- Settles O15: the lines that remain are some of those that stood there. -/
theorem stepKeepsDuty : Obligations.StepKeepsDuty := fun _ _ hs h line hline =>
  hs line (List.mem_of_mem_tail (step_next_stimulus h ▸ hline))

/-- A dutiful environment drives the port well also where it holds the last word. -/
theorem wellDriven_fetch {s : State} (h : Dutiful s) : wellDriven (fetch s).1.lines = true := by
  rcases fetch_cases s with ⟨-, hf⟩ | ⟨line, rest, hcons, hf⟩
  · rw [hf]; exact wellDriven_linesOfWord _
  · rw [hf]; exact h line (hcons ▸ List.mem_cons_self)

/-- Settles O54: well-driven lines decode, and only a decoding error stops a step. -/
theorem dutifulStepCompletes : Obligations.DutifulStepCompletes := by
  intro s hduty
  obtain ⟨w, hw⟩ := exists_linesOfWord_of_wellDriven (wellDriven_fetch hduty)
  have hnext : ∃ t, step s = .next t := by
    rcases step_cases s with ⟨e, hd, -⟩ | ⟨i, -, -, h⟩ | ⟨i, elapsed, -, -, h⟩
    · rw [hw, decode_linesOfWord] at hd; cases hd
    · exact ⟨_, h⟩
    · exact ⟨_, h⟩
  obtain ⟨t, ht⟩ := hnext
  exact ⟨t, ht, stepKeepsDuty s t hduty ht⟩

theorem run_succ_of_step (k : Nat) {s t : State} (h : step s = .next t) : core.run (k + 1) s = core.run k t := by
  simp [Host.Core.run, core, h]

/-- Settles O16, by induction on the number of steps, each of which leaves a dutiful environment. -/
theorem dutifulRunNeverStops : Obligations.DutifulRunNeverStops := by
  intro k
  induction k with
  | zero => exact fun s _ => ⟨s, rfl⟩
  | succ k ih =>
    intro s hduty
    obtain ⟨t, hstep, ht⟩ := dutifulStepCompletes s hduty
    obtain ⟨u, hu⟩ := ih t ht
    exact ⟨u, (run_succ_of_step k hstep).trans hu⟩

/-! ## Beside the core: several instances, and the registered wrapper -/

/-- The state that the block at place `k` steps to, where there is one. -/
def nextAt (k : Nat) (bank : List State) : Option State :=
  bank[k]?.bind fun s => match step s with
    | .next t => some t
    | .fault _ => none
    | .refused _ => none

theorem stepInstance_eq_map (k : Nat) (bank : List State) :
    stepInstance k bank = (nextAt k bank).map (bank.set k) := by
  unfold stepInstance nextAt
  cases bank[k]? with
  | none => rfl
  | some s => cases h : step s <;> simp [h]

theorem nextAt_of_step {k : Nat} {bank : List State} {s t : State} (hs : bank[k]? = some s) (h : step s = .next t) :
    nextAt k bank = some t := by
  simp [nextAt, hs, h]

/-- A step at another place has no part in this one's. -/
theorem nextAt_set_of_ne {j k : Nat} (hjk : j ≠ k) (bank : List State) (t : State) :
    nextAt k (bank.set j t) = nextAt k bank := by
  rw [nextAt, List.getElem?_set_ne hjk, nextAt]

/-- Two steps at different places make one bank out of the two next states, each found in the bank as it stood. -/
theorem bind_stepInstance {j k : Nat} (hjk : j ≠ k) (bank : List State) :
    (stepInstance j bank).bind (stepInstance k) =
      (nextAt j bank).bind fun t => (nextAt k bank).bind fun u => some ((bank.set j t).set k u) := by
  rw [stepInstance_eq_map]
  cases nextAt j bank with
  | none => rfl
  | some t =>
    rw [Option.map_some, Option.bind_some, Option.bind_some, stepInstance_eq_map, nextAt_set_of_ne hjk,
      Option.map_eq_bind]
    rfl

/-- Settles O17: a step sets one place of the bank by what stood at that place alone, and two such settings commute. -/
theorem instancesDoNotInteract : Obligations.InstancesDoNotInteract := by
  constructor
  · intro bank k s t hs h
    have hlt : k < bank.length := (List.getElem?_eq_some_iff.1 hs).1
    refine ⟨bank.set k t, ?_, List.getElem?_set_self hlt, fun j hj => List.getElem?_set_ne hj.symm⟩
    rw [stepInstance_eq_map, nextAt_of_step hs h, Option.map_some]
  · intro bank j k hjk
    rw [bind_stepInstance hjk, bind_stepInstance hjk.symm, Option.bind_comm]
    simp only [List.set_comm _ _ hjk]

/-- Settles O18, by the place of the register. -/
theorem wrapperDelaysFtoi : Obligations.WrapperDelaysFtoi := by
  refine ⟨rfl, rfl, fun w uf => ?_⟩
  obtain ⟨place, content⟩ := w
  cases place with
  | onInput => exact ⟨rfl, rfl⟩
  | onResult => exact ⟨rfl, rfl⟩

end Sys2Proof.Machine

/-! ## The in-range path: magnitude, sign and guard -/

namespace Sys2Proof.Machine

open Safety

/-- Every input is below 1 in magnitude, on the shifter's used path, or 2^31 and more. -/
theorem exponent_cases (uf : Word) :
    isSmall (exponentOf uf) = true ∨ (0 ≤ exponentOf uf ∧ exponentOf uf ≤ 30) ∨ isOvf (exponentOf uf) = true := by
  rw [isSmall_iff, isOvf_iff]; omega

/-- The used path of the shifter (`e` in 0..30) in terms of the biased exponent. -/
theorem used_iff (uf : Word) : (0 ≤ exponentOf uf ∧ exponentOf uf ≤ 30) ↔
    (127 ≤ uf.toNat / 2 ^ 23 % 2 ^ 8 ∧ uf.toNat / 2 ^ 23 % 2 ^ 8 ≤ 157) := by
  rw [exponentOf_eq]; omega

/-! ### The shifter's output -/

theorem shiftAmount_left {e : Int} (h : 24 ≤ e) : (shiftAmount e : Int) = e - 23 := by
  rw [shiftAmount, if_pos ((shiftsLeft_iff e).2 (by omega))]
  omega

theorem shiftAmount_right {e : Int} (h : e ≤ 23) : (shiftAmount e : Int) = 23 - e := by
  rw [shiftAmount, if_neg (mt (shiftsLeft_iff e).1 (by omega))]
  omega

/-- The largest 24-bit mantissa shifted by the largest amount, 7, bounds the left path (R91). -/
theorem barrelShift_left_le (m : BitVec 24) {e : Int} (h : 23 < e) (h30 : e ≤ 30) :
    (barrelShift m e).toNat ≤ 2147483520 := by
  have hm := m.isLt
  have hpow : 2 ^ (e - 23).toNat ≤ 2 ^ 7 := Nat.pow_le_pow_right (by omega) (by omega)
  calc (barrelShift m e).toNat
    _ = m.toNat * 2 ^ (e - 23).toNat := barrelShift_left_toNat m h h30
    _ ≤ (2 ^ 24 - 1) * 2 ^ 7 := Nat.mul_le_mul (by omega) hpow
    _ = 2147483520 := by decide

/-- Settles O32: on the left path the shift is an exact multiplication whose product is below 2^31. -/
theorem leftPathIsExact : Obligations.LeftPathIsExact := by
  intro m e h24 h30
  have hleft : 23 < e := by omega
  have hamount := shiftAmount_left h24
  have hbound := barrelShift_left_le m hleft h30
  refine ⟨(shiftsLeft_iff e).2 hleft, hamount, by omega, by omega, ?_, barrelShift_left_toNat m hleft h30, by omega⟩
  rw [barrelShift_used m (by omega) h30, if_pos hleft]

/-- The magnitude of an input from `e` = 24 on, with no bit dropped. -/
theorem magOf_left {uf : Word} (h : 23 < exponentOf uf) (h30 : exponentOf uf ≤ 30) :
    (magOf uf).toNat = (mantissa (fracField uf)).toNat * 2 ^ (exponentOf uf - 23).toNat :=
  barrelShift_left_toNat _ h h30

/-- The magnitude of an input up to `e` = 23, with the low `23 − e` bits dropped. -/
theorem magOf_right {uf : Word} (h0 : 0 ≤ exponentOf uf) (h : exponentOf uf ≤ 23) :
    (magOf uf).toNat = (mantissa (fracField uf)).toNat / 2 ^ (23 - exponentOf uf).toNat :=
  barrelShift_right_toNat _ h0 h

/-- On the used path the implicit leading 1 of the mantissa is never shifted out. -/
theorem one_le_magOf {uf : Word} (h0 : 0 ≤ exponentOf uf) (h30 : exponentOf uf ≤ 30) : 1 ≤ (magOf uf).toNat := by
  have hm := mantissa_toNat (fracField uf)
  by_cases hleft : 23 < exponentOf uf
  · rw [magOf_left hleft h30]
    exact Nat.mul_pos (by omega) (by positivity)
  · have hpow : 2 ^ (23 - exponentOf uf).toNat ≤ 2 ^ 23 := Nat.pow_le_pow_right (by omega) (by omega)
    rw [magOf_right h0 (by omega)]
    exact Nat.div_pos (by omega) (by positivity)

theorem magOf_of_unused {uf : Word} (h : ¬(0 ≤ exponentOf uf ∧ exponentOf uf ≤ 30)) : magOf uf = 0#32 :=
  barrelShift_unused _ h

theorem magOf_le (uf : Word) : (magOf uf).toNat ≤ 2147483520 := by
  by_cases hused : 0 ≤ exponentOf uf ∧ exponentOf uf ≤ 30
  · by_cases hleft : 23 < exponentOf uf
    · exact barrelShift_left_le _ hleft hused.2
    · have hm := (mantissa (fracField uf)).isLt
      rw [magOf_right hused.1 (by omega)]
      exact (Nat.div_le_self _ _).trans (by omega)
  · rw [magOf_of_unused hused]; decide

/-! ### The sign applicator and the guard -/

/-- Below 2^31 the sign applicator multiplies by the sign, with no wrap. -/
theorem applySign_toInt (s : BitVec 1) {mag : Word} (h : mag.toNat < 2 ^ 31) :
    (applySign s mag).toInt = (-1) ^ s.toNat * (mag.toNat : ℤ) := by
  have hmag : mag.toInt = mag.toNat := BitVec.toInt_eq_toNat_of_lt (by omega)
  rcases sign_cases s with rfl | rfl
  · rw [applySign_zero, hmag]; simp
  · have hmin : mag ≠ BitVec.intMin 32 := by
      rintro rfl
      exact absurd h (by decide)
    rw [applySign_one, BitVec.toInt_neg_of_ne_intMin hmin, hmag]; simp

/-- Flipping the sign negates the value. -/
theorem applySign_flip (s : BitVec 1) (mag : Word) : applySign (s ^^^ 1#1) mag = -applySign s mag := by
  rcases sign_cases s with rfl | rfl
  · rw [applySign_zero, ← applySign_one]; rfl
  · rw [applySign_one, neg_neg, ← applySign_zero mag]; rfl

/-- Settles O35: the complement and the added 1 are negation modulo 2^32, which does not wrap below 2^31. -/
theorem signApplicatorNegates : Obligations.SignApplicatorNegates := by
  refine fun s mag => ⟨?_, ?_, fun _ hmag => ?_⟩
  · rintro rfl
    rw [applySign_one, BitVec.toNat_neg]
  · rintro rfl
    exact applySign_zero mag
  · rw [applySign_toInt s (by omega)]
    rcases sign_cases s with rfl | rfl <;> simp

/-- The sign of an input as a factor. -/
def signOf (uf : Word) : ℤ := (-1) ^ (signField uf).toNat

/-- The factor is 1 for the patterns below 2^31 and −1 for the others. -/
theorem signOf_eq (uf : Word) : signOf uf = if uf.toNat < 2 ^ 31 then 1 else -1 := by
  have hlt := uf.isLt
  rw [signOf, signField_toNat]
  split
  · rw [show uf.toNat / 2 ^ 31 = 0 by omega, pow_zero]
  · rw [show uf.toNat / 2 ^ 31 = 1 by omega, pow_one]

theorem signOf_cases (uf : Word) : signOf uf = 1 ∨ signOf uf = -1 := neg_one_pow_eq_or ℤ _

theorem valOf_toInt (uf : Word) : (valOf uf).toInt = signOf uf * (magOf uf).toNat :=
  applySign_toInt _ (lt_of_le_of_lt (magOf_le uf) (by decide))

/-- Settles O41: with sign 0 the value is the magnitude, which is below 2^31. -/
theorem finalGuardNeverFires : Obligations.FinalGuardNeverFires := by
  intro uf
  have hmag := magOf_le uf
  rw [Bool.eq_false_iff]
  intro hfires
  obtain ⟨hsign, hbit⟩ := (guardFires_iff _ _).1 hfires
  rw [getLsbD_31_iff, valOf, hsign, applySign_zero] at hbit
  omega

/-! ### The output on the used path, and what all detectors agree on -/

/-- The input is on the used path exactly where neither magnitude detector fires. -/
theorem isSmall_isOvf_eq_false {uf : Word} (h0 : 0 ≤ exponentOf uf) (h30 : exponentOf uf ≤ 30) :
    isSmall (exponentOf uf) = false ∧ isOvf (exponentOf uf) = false := by
  rw [Bool.eq_false_iff, Bool.eq_false_iff, Ne, Ne, isSmall_iff, isOvf_iff]
  omega

/-- On the used path no detector fires. -/
theorem detectors_of_used {uf : Word} (h0 : 0 ≤ exponentOf uf) (h30 : exponentOf uf ≤ 30) :
    isPzero uf = false ∧ isSpecial (bexpField uf) = false ∧ isDenorm (bexpField uf) = false ∧
      isSmall (exponentOf uf) = false ∧ isOvf (exponentOf uf) = false := by
  obtain ⟨hsmall, hovf⟩ := isSmall_isOvf_eq_false h0 h30
  have hdenorm : isDenorm (bexpField uf) = false :=
    Bool.eq_false_iff.2 fun h => Bool.eq_false_iff.1 hsmall (isSmall_of_isDenorm h)
  exact ⟨Bool.eq_false_iff.2 fun h => Bool.eq_false_iff.1 hdenorm (isDenorm_of_isPzero h),
    Bool.eq_false_iff.2 fun h => Bool.eq_false_iff.1 hovf (isOvf_of_isSpecial h), hdenorm, hsmall, hovf⟩

theorem ftoi_of_used {uf : Word} (h0 : 0 ≤ exponentOf uf) (h30 : exponentOf uf ≤ 30) : ftoi uf = valOf uf := by
  obtain ⟨hpzero, hspecial, hdenorm, hsmall, hovf⟩ := detectors_of_used h0 h30
  rw [ftoi_eq_firstMatch]
  simp [firstMatch, detectors, hpzero, hspecial, hdenorm, hsmall, hovf, finalGuardNeverFires uf]

theorem ftoi_toInt_of_used {uf : Word} (h0 : 0 ≤ exponentOf uf) (h30 : exponentOf uf ≤ 30) :
    (ftoi uf).toInt = signOf uf * (magOf uf).toNat := by
  rw [ftoi_of_used h0 h30, valOf_toInt]

/-- The sign changes no magnitude, so the used path stays inside the range of the magnitudes (R100). -/
theorem ftoi_bounds_of_used {uf : Word} (h0 : 0 ≤ exponentOf uf) (h30 : exponentOf uf ≤ 30) :
    -2147483520 ≤ (ftoi uf).toInt ∧ (ftoi uf).toInt ≤ 2147483520 := by
  have hmag := magOf_le uf
  have hresult := ftoi_toInt_of_used h0 h30
  rcases signOf_cases uf with hs | hs <;> rw [hs] at hresult <;> omega

/-- Settles O34: the shifter gives its reference value, and a magnitude detector selects before the value is looked
at. -/
theorem unusedShifterOutputIsInvisible : Obligations.UnusedShifterOutputIsInvisible := by
  intro uf mag hunused
  refine ⟨magOf_of_unused hunused, gives_of_ftoi_eq ?_⟩
  rcases exponent_cases uf with hsmall | hused | hovf
  · have hspecial := isSpecial_eq_false_of_isSmall hsmall
    rw [ftoi_of_isSmall hsmall]
    simp [saturationMux, hspecial, hsmall]
  · exact absurd hused hunused
  · have hpzero := isPzero_eq_false_of_isOvf hovf
    have hdenorm := isDenorm_eq_false_of_isOvf hovf
    have hsmall := isSmall_eq_false_of_isOvf hovf
    rw [ftoi_of_isOvf hovf]
    simp [saturationMux, sentinel, hpzero, hdenorm, hsmall, hovf]

/-- Settles O42: the leading 1 gives the lower bound, 24 bits shifted by 7 the upper one, and the sign changes no
magnitude. -/
theorem usedPathRanges : Obligations.UsedPathRanges := by
  refine ⟨fun uf h0 h30 => ?_, by decide, by decide⟩
  have hamount : shiftAmount (exponentOf uf) ≤ 23 := by
    by_cases hleft : 24 ≤ exponentOf uf
    · have := shiftAmount_left hleft; omega
    · have := shiftAmount_right (e := exponentOf uf) (by omega); omega
  exact ⟨one_le_magOf h0 h30, magOf_le uf, hamount, ftoi uf, gives_of_ftoi_eq rfl, ftoi_bounds_of_used h0 h30⟩

/-! ### The order of the detectors -/

/-- Conditions that agree on one output select it in any order, where one of them is true. -/
theorem firstMatch_eq_of_agree {other r : Word} {order : List (Bool × Word)}
    (hagree : ∀ p ∈ order, p.1 = true → p.2 = r) (htrue : ∃ p ∈ order, p.1 = true) : firstMatch other order = r := by
  induction order with
  | nil => simp at htrue
  | cons p rest ih =>
    obtain ⟨condition, output⟩ := p
    cases condition with
    | true => exact hagree _ List.mem_cons_self rfl
    | false =>
      obtain ⟨q, hq, hqtrue⟩ := htrue
      rcases List.mem_cons.1 hq with rfl | hq
      · cases hqtrue
      · exact ih (fun p hp => hagree p (List.mem_cons_of_mem _ hp)) ⟨q, hq, hqtrue⟩

theorem firstMatch_eq_other {other : Word} {order : List (Bool × Word)} (h : ∀ p ∈ order, p.1 = false) :
    firstMatch other order = other := by
  induction order with
  | nil => rfl
  | cons p rest ih =>
    rw [firstMatch, h p List.mem_cons_self]
    exact ih fun q hq => h q (List.mem_cons_of_mem _ hq)

/-- Each detector that is true for an input selects that input's output: the three that select 0 are a magnitude below
1, the two that select the sentinel a magnitude of 2^31 or more. -/
theorem detectors_agree {uf : Word} : ∀ p ∈ detectors uf, p.1 = true → p.2 = ftoi uf := by
  have hsmall (h : isSmall (exponentOf uf) = true) : 0x00000000#32 = ftoi uf := (ftoi_of_isSmall h).symm
  have hovf (h : isOvf (exponentOf uf) = true) : 0x80000000#32 = ftoi uf := (ftoi_of_isOvf h).symm
  simp only [detectors, List.forall_mem_cons]
  exact ⟨fun h => hsmall (isSmall_of_isDenorm (isDenorm_of_isPzero h)), fun h => hovf (isOvf_of_isSpecial h),
    fun h => hsmall (isSmall_of_isDenorm h), hsmall, hovf, List.forall_mem_nil _⟩

/-- Where no magnitude detector fires, the output is the value of the used path. -/
theorem ftoi_of_not_isSmall_of_not_isOvf {uf : Word} (hsmall : ¬isSmall (exponentOf uf) = true)
    (hovf : ¬isOvf (exponentOf uf) = true) : ftoi uf = valOf uf := by
  rw [isSmall_iff] at hsmall
  rw [isOvf_iff] at hovf
  exact ftoi_of_used (by omega) (by omega)

/-- Every order of the detectors selects the output, or leaves the value where none of them is true. -/
theorem firstMatch_perm_detectors {uf : Word} {order : List (Bool × Word)} (h : order.Perm (detectors uf)) :
    firstMatch (valOf uf) order = ftoi uf := by
  by_cases htrue : ∃ p ∈ order, p.1 = true
  · exact firstMatch_eq_of_agree (fun p hp => detectors_agree p (h.mem_iff.1 hp)) htrue
  · have hfalse : ∀ p ∈ order, ¬p.1 = true := fun p hp ht => htrue ⟨p, hp, ht⟩
    have hsmall := hfalse (isSmall (exponentOf uf), 0x00000000#32) (h.mem_iff.2 (by simp [detectors]))
    have hovf := hfalse (isOvf (exponentOf uf), 0x80000000#32) (h.mem_iff.2 (by simp [detectors]))
    rw [firstMatch_eq_other fun p hp => Bool.eq_false_iff.2 (hfalse p hp), ftoi_of_not_isSmall_of_not_isOvf hsmall hovf]

/-- A plain OR of the detectors of each output selects the output. -/
theorem ftoi_eq_or_detectors (uf : Word) : ftoi uf =
    if isSpecial (bexpField uf) || isOvf (exponentOf uf) then 0x80000000#32
    else if isPzero uf || isDenorm (bexpField uf) || isSmall (exponentOf uf) then 0x00000000#32 else valOf uf := by
  split
  case isTrue h =>
    rw [Bool.or_eq_true] at h
    exact ftoi_of_isOvf (h.elim isOvf_of_isSpecial id)
  case isFalse hhigh =>
    split
    case isTrue h =>
      rw [Bool.or_eq_true, Bool.or_eq_true] at h
      exact ftoi_of_isSmall (h.elim (·.elim (isSmall_of_isDenorm ∘ isDenorm_of_isPzero) isSmall_of_isDenorm) id)
    case isFalse hlow =>
      rw [Bool.or_eq_true, not_or] at hhigh hlow
      exact ftoi_of_not_isSmall_of_not_isOvf hlow.2 hhigh.2

/-- Settles O39: the detectors that are true for one input all select its output, so no order of them matters. -/
theorem detectorOrderIrrelevant : Obligations.DetectorOrderIrrelevant := by
  intro uf
  have he := exponentOf_eq uf
  refine ⟨isDenorm_of_isPzero, fun h => ⟨?_, isSmall_of_isDenorm h⟩, fun h => ⟨?_, isOvf_of_isSpecial h⟩, ?_,
    isSmall_isOvf_eq_false, fun order h => gives_of_ftoi_eq (firstMatch_perm_detectors h).symm,
    gives_of_ftoi_eq (ftoi_eq_or_detectors uf)⟩
  · rw [isDenorm_bexpField_iff] at h; omega
  · rw [isSpecial_bexpField_iff] at h; omega
  · rw [Bool.and_eq_false_iff, or_iff_not_imp_right, Bool.not_eq_false]
    exact isSmall_eq_false_of_isOvf

/-! ### The laws by the biased exponent -/

/-- Settles O44: from negative zero up to `0xBF7FFFFF` the biased exponent is at most 126. -/
theorem negativeFractionsGiveZero : Obligations.NegativeFractionsGiveZero := by
  intro uf hlow hhigh
  have hsmall : isSmall (exponentOf uf) = true := (isSmall_exponentOf_iff uf).2 (by omega)
  exact gives_of_ftoi_eq (ftoi_of_isSmall hsmall)

/-- Settles O47: on the used path the result is at most 2147483520 in magnitude, which neither pattern is. -/
theorem saturationDoesNotClamp : Obligations.SaturationDoesNotClamp := by
  refine fun uf => ⟨ftoi uf, gives_of_ftoi_eq rfl, ?_⟩
  rw [← isOvf_exponentOf_iff]
  rcases exponent_cases uf with hsmall | ⟨h0, h30⟩ | hovf
  · have hovf : ¬isOvf (exponentOf uf) = true := fun h => by simp [isSmall_eq_false_of_isOvf h] at hsmall
    simp [ftoi_of_isSmall hsmall, hovf]
  · have hovf := (isSmall_isOvf_eq_false h0 h30).2
    have hbounds := ftoi_bounds_of_used h0 h30
    have hmax : ftoi uf ≠ 0x7FFFFFFF#32 := fun h => absurd (h ▸ hbounds) (by decide)
    have hmin : ftoi uf ≠ 0x80000000#32 := fun h => absurd (h ▸ hbounds) (by decide)
    simp [hmax, hmin, hovf]
  · simp [ftoi_of_isOvf hovf, hovf]

end Sys2Proof.Machine

/-! ## The laws by input class, biased exponent and sign -/

namespace Sys2Proof.Machine

open Safety

/-- Settles O40: the thresholds are the magnitude detectors' own, and between them the magnitude is the shifter's. -/
theorem closedFormEqualsFtoi : Obligations.ClosedFormEqualsFtoi := by
  intro uf bexp m mag
  have he : exponentOf uf = (bexp : ℤ) - 127 := exponentOf_eq uf
  have hm : (mantissa (fracField uf)).toNat = m := by
    rw [mantissa_toNat, fracField_toNat, Nat.add_comm]
  apply gives_of_ftoi_eq
  split
  case isTrue h => exact ftoi_of_isOvf ((isOvf_exponentOf_iff uf).2 h)
  case isFalse hovf =>
    split
    case isTrue h => exact ftoi_of_isSmall ((isSmall_exponentOf_iff uf).2 h)
    case isFalse hsmall =>
      have hmag : (magOf uf).toNat = mag := by
        by_cases hleft : 150 < bexp
        · have hamount : (exponentOf uf - 23).toNat = bexp - 150 := by omega
          rw [magOf_left (by omega) (by omega), hamount, hm]
          exact (if_pos hleft).symm
        · have hamount : (23 - exponentOf uf).toNat = 150 - bexp := by omega
          rw [magOf_right (by omega) (by omega), hamount, hm]
          exact (if_neg hleft).symm
      have hresult := ftoi_toInt_of_used (uf := uf) (by omega) (by omega)
      rw [← BitVec.ofInt_toInt (x := ftoi uf), hresult, signOf_eq, hmag]
      split <;> simp

/-! ### The input classes -/

/-- The class by the comparisons of R64, on the number that the biased exponent is. -/
theorem classify_eq (uf : Word) : classify uf =
    if uf = 0x00000000#32 then .pzero
    else if uf.toNat / 2 ^ 23 % 2 ^ 8 = 0 then .denorm
    else if uf.toNat / 2 ^ 23 % 2 ^ 8 = 255 then .special
    else if uf.toNat / 2 ^ 23 % 2 ^ 8 < 127 then .small
    else if uf.toNat / 2 ^ 23 % 2 ^ 8 < 151 then .inrangeRight
    else if uf.toNat / 2 ^ 23 % 2 ^ 8 < 158 then .inrangeLeft
    else .ovf := by
  simp only [classify, isPzero_iff, bexpField_toNat]

/-- The bounds of R63's ranges are the patterns at which R64's comparisons change. -/
theorem inClassRange_classify (uf : Word) : InClassRange uf (classify uf) := by
  rw [classify_eq]
  split_ifs with hpzero
  · exact hpzero
  · exact ⟨hpzero, by omega⟩
  · exact (by omega : 0x7F800000 ≤ uf.toNat % 2 ^ 31)
  all_goals constructor <;> omega

/-- No range of R63's table reaches into another class. -/
theorem classify_of_inClassRange {uf : Word} {c : InputClass} (h : InClassRange uf c) : classify uf = c := by
  have hne_zero (hpos : 0 < uf.toNat % 2 ^ 31) : uf ≠ 0x00000000#32 := by
    rintro rfl
    exact absurd hpos (by decide)
  cases c with
  | pzero => exact if_pos ((isPzero_iff uf).2 h)
  | denorm =>
    obtain ⟨hne, hhigh⟩ := h
    rw [classify_eq, if_neg hne, if_pos (by omega)]
  | special =>
    have hlow : 0x7F800000 ≤ uf.toNat % 2 ^ 31 := h
    rw [classify_eq, if_neg (hne_zero (by omega)), if_neg (by omega), if_pos (by omega)]
  | small =>
    obtain ⟨hlow, hhigh⟩ := h
    rw [classify_eq, if_neg (hne_zero (by omega)), if_neg (by omega), if_neg (by omega), if_pos (by omega)]
  | inrangeRight =>
    obtain ⟨hlow, hhigh⟩ := h
    rw [classify_eq, if_neg (hne_zero (by omega)), if_neg (by omega), if_neg (by omega), if_neg (by omega),
      if_pos (by omega)]
  | inrangeLeft =>
    obtain ⟨hlow, hhigh⟩ := h
    rw [classify_eq, if_neg (hne_zero (by omega)), if_neg (by omega), if_neg (by omega), if_neg (by omega),
      if_neg (by omega), if_pos (by omega)]
  | ovf =>
    obtain ⟨hlow, hhigh⟩ := h
    rw [classify_eq, if_neg (hne_zero (by omega)), if_neg (by omega), if_neg (by omega), if_neg (by omega),
      if_neg (by omega), if_neg (by omega)]

/-- The output column of R63's table: each range lies on one side of the magnitude detectors' thresholds. -/
theorem ftoi_of_inClassRange {uf : Word} {c : InputClass} (h : InClassRange uf c) : ftoi uf = classOutput uf c := by
  have hsmall (hb : uf.toNat / 2 ^ 23 % 2 ^ 8 ≤ 126) : ftoi uf = 0x00000000#32 :=
    ftoi_of_isSmall ((isSmall_exponentOf_iff uf).2 hb)
  have hovf (hb : 158 ≤ uf.toNat / 2 ^ 23 % 2 ^ 8) : ftoi uf = 0x80000000#32 :=
    ftoi_of_isOvf ((isOvf_exponentOf_iff uf).2 hb)
  have hused (hb : 127 ≤ uf.toNat / 2 ^ 23 % 2 ^ 8 ∧ uf.toNat / 2 ^ 23 % 2 ^ 8 ≤ 157) : ftoi uf = valOf uf := by
    obtain ⟨h0, h30⟩ := (used_iff uf).2 hb
    exact ftoi_of_used h0 h30
  cases c with
  | pzero => exact hsmall (by rw [show uf = 0x00000000#32 from h]; decide)
  | denorm => obtain ⟨-, hhigh⟩ := h; exact hsmall (by omega)
  | special => have hlow : 0x7F800000 ≤ uf.toNat % 2 ^ 31 := h; exact hovf (by omega)
  | small => obtain ⟨-, hhigh⟩ := h; exact hsmall (by omega)
  | inrangeRight => obtain ⟨hlow, hhigh⟩ := h; exact hused (by omega)
  | inrangeLeft => obtain ⟨hlow, hhigh⟩ := h; exact hused (by omega)
  | ovf => obtain ⟨hlow, -⟩ := h; exact hovf (by omega)

/-- Settles O24: every input lies in the range of its class and in no other, and has the output of that class. -/
theorem classesPartitionInputs : Obligations.ClassesPartitionInputs := fun uf =>
  ⟨fun _ => ⟨fun h => h ▸ inClassRange_classify uf, classify_of_inClassRange⟩,
    gives_of_ftoi_eq (ftoi_of_inClassRange (inClassRange_classify uf))⟩

/-! ### Exactness and the sign bit -/

/-- Settles O51: the value is the sign times the magnitude, and the shift is to the left, by 0, or to the right. -/
theorem exactnessByExponent : Obligations.ExactnessByExponent := by
  intro uf m sign
  have hresult (h0 : 0 ≤ exponentOf uf) (h30 : exponentOf uf ≤ 30) : (ftoi uf).toInt = sign * (magOf uf).toNat :=
    ftoi_toInt_of_used h0 h30
  refine ⟨fun h23 h30 => ⟨ftoi uf, gives_of_ftoi_eq rfl, ?_⟩, fun h0 h22 => ⟨ftoi uf, gives_of_ftoi_eq rfl, ?_⟩⟩
  · have hmag : (magOf uf).toNat = (mantissa (fracField uf)).toNat * 2 ^ (exponentOf uf - 23).toNat := by
      rcases eq_or_lt_of_le h23 with h | h
      · rw [magOf_right (by omega) h.ge, ← h]; simp
      · exact magOf_left h h30
    rw [hresult (by omega) h30, hmag]
    push_cast
    exact (mul_assoc _ _ _).symm
  · rw [hresult h0 (by omega), magOf_right h0 (by omega)]
    push_cast
    rfl

/-- XOR works on each field of two words by itself. -/
theorem packFields_xor (s s' : BitVec 1) (bexp bexp' : BitVec 8) (frac frac' : BitVec 23) :
    packFields s bexp frac ^^^ packFields s' bexp' frac' =
      packFields (s ^^^ s') (bexp ^^^ bexp') (frac ^^^ frac') := by
  rw [packFields, packFields, BitVec.xor_append, BitVec.xor_append, packFields]

/-- Flipping the sign bit changes no other field. -/
theorem xor_signBit (uf : Word) :
    uf ^^^ 0x80000000#32 = packFields (signField uf ^^^ 1#1) (bexpField uf) (fracField uf) :=
  calc uf ^^^ 0x80000000#32
    _ = packFields (signField uf) (bexpField uf) (fracField uf) ^^^ packFields 1#1 0#8 0#23 := by
      rw [packFields_fields]; rfl
    _ = packFields (signField uf ^^^ 1#1) (bexpField uf) (fracField uf) := by
      rw [packFields_xor, BitVec.xor_zero, BitVec.xor_zero]

theorem exponentOf_xor_signBit (uf : Word) : exponentOf (uf ^^^ 0x80000000#32) = exponentOf uf := by
  rw [exponentOf, xor_signBit, bexpField_packFields, exponentOf]

theorem valOf_xor_signBit (uf : Word) : valOf (uf ^^^ 0x80000000#32) = -valOf uf := by
  rw [valOf, magOf, xor_signBit, signField_packFields, bexpField_packFields, fracField_packFields, applySign_flip]
  rfl

/-- Settles O50: the flip negates the value of the used path, and the two magnitude detectors do not see the sign. -/
theorem signSymmetry : Obligations.SignSymmetry := by
  intro uf
  have hexp := exponentOf_xor_signBit uf
  refine ⟨ftoi uf, ftoi (uf ^^^ 0x80000000#32), gives_of_ftoi_eq rfl, gives_of_ftoi_eq rfl, ?_⟩
  rw [bexpField_toNat, ← used_iff]
  refine ⟨fun ⟨h0, h30⟩ => ?_, fun hunused => ?_⟩
  · rw [ftoi_of_used (hexp ▸ h0) (hexp ▸ h30), valOf_xor_signBit, ftoi_of_used h0 h30, BitVec.ofInt_neg,
      BitVec.ofInt_toInt]
  · rcases exponent_cases uf with hsmall | hused | hovf
    · rw [ftoi_of_isSmall hsmall, ftoi_of_isSmall (hexp ▸ hsmall)]
      exact ⟨rfl, .inl rfl⟩
    · exact absurd hused hunused
    · rw [ftoi_of_isOvf hovf, ftoi_of_isOvf (hexp ▸ hovf)]
      exact ⟨rfl, .inr rfl⟩

end Sys2Proof.Machine

/-! ## Truncation and the real value of an input -/

namespace Sys2Proof.Safety

open Machine

/-! ### Truncation toward zero (R111) -/

theorem truncate_of_nonneg {v : ℚ} (h : 0 ≤ v) : truncate v = ⌊v⌋ := if_pos h

theorem truncate_of_neg {v : ℚ} (h : v < 0) : truncate v = ⌈v⌉ := if_neg h.not_ge

@[simp] theorem truncate_intCast (k : ℤ) : truncate k = k := by simp [truncate]

/-- Truncation works on the magnitude, whatever the sign. -/
theorem abs_truncate (v : ℚ) : |truncate v| = ⌊|v|⌋ := by
  rcases le_or_gt 0 v with h | h
  · rw [truncate_of_nonneg h, abs_of_nonneg h, abs_of_nonneg (Int.floor_nonneg.2 h)]
  · have hceil : ⌈v⌉ ≤ 0 := Int.ceil_le.2 (by simpa using h.le)
    rw [truncate_of_neg h, abs_of_neg h, abs_of_nonpos hceil, Int.floor_neg]

theorem truncate_neg (v : ℚ) : truncate (-v) = -truncate v := by
  rcases lt_trichotomy v 0 with h | rfl | h
  · rw [truncate_of_nonneg (by linarith), truncate_of_neg h, Int.floor_neg]
  · simp [truncate]
  · rw [truncate_of_neg (by linarith), truncate_of_nonneg h.le, Int.ceil_neg]

theorem abs_truncate_le (v : ℚ) : |(truncate v : ℚ)| ≤ |v| := by
  rw [← Int.cast_abs, abs_truncate]
  exact Int.floor_le _

theorem abs_sub_truncate_lt_one (v : ℚ) : |v - truncate v| < 1 := by
  rcases le_or_gt 0 v with h | h
  · rw [truncate_of_nonneg h, abs_lt]
    constructor <;> linarith [Int.floor_le v, Int.lt_floor_add_one v]
  · rw [truncate_of_neg h, abs_lt]
    constructor <;> linarith [Int.le_ceil v, Int.ceil_lt_add_one v]

theorem mul_truncate_nonneg (v : ℚ) : 0 ≤ v * truncate v := by
  rcases le_or_gt 0 v with h | h
  · rw [truncate_of_nonneg h]
    exact mul_nonneg h (by exact_mod_cast Int.floor_nonneg.2 h)
  · rw [truncate_of_neg h]
    exact mul_nonneg_of_nonpos_of_nonpos h.le (by exact_mod_cast Int.ceil_le.2 (by simpa using h.le))

/-! ### The real value in terms of the block's own signals -/

theorem isFinite_iff (uf : Word) : IsFinite uf ↔ uf.toNat / 2 ^ 23 % 2 ^ 8 ≠ 255 := by
  rw [IsFinite, Ne, and_exponentMask_eq_iff, bexpField_toNat]

/-- A normalized input is its sign times its mantissa, scaled by its exponent. -/
theorem realValue_normalized {uf : Word} (h : uf.toNat / 2 ^ 23 % 2 ^ 8 ≠ 0) :
    realValue uf = signOf uf * ((mantissa (fracField uf)).toNat * 2 ^ (exponentOf uf - 23)) := by
  simp only [realValue, if_neg h, signOf, signField_toNat, mantissa_toNat, fracField_toNat, exponentOf_eq]
  push_cast
  ring

theorem abs_signOf (uf : Word) : |(signOf uf : ℚ)| = 1 := by
  rcases signOf_cases uf with h | h <;> simp [h]

theorem abs_realValue_normalized {uf : Word} (h : uf.toNat / 2 ^ 23 % 2 ^ 8 ≠ 0) :
    |realValue uf| = (mantissa (fracField uf)).toNat * 2 ^ (exponentOf uf - 23) := by
  rw [realValue_normalized h, abs_mul, abs_signOf, one_mul, abs_of_nonneg (by positivity)]

theorem realValue_eq_signOf_mul_abs {uf : Word} (h : uf.toNat / 2 ^ 23 % 2 ^ 8 ≠ 0) :
    realValue uf = signOf uf * |realValue uf| := by
  rw [abs_realValue_normalized h, realValue_normalized h]

/-- A biased exponent of 0 leaves less than 2^23 units of 2^-149. -/
theorem abs_realValue_denormal_lt {uf : Word} (h : uf.toNat / 2 ^ 23 % 2 ^ 8 = 0) : |realValue uf| < 1 := by
  have hfrac : ((uf.toNat % 2 ^ 23 : ℕ) : ℚ) < 2 ^ 23 := by exact_mod_cast Nat.mod_lt _ (by norm_num)
  have hvalue : |realValue uf| = (uf.toNat % 2 ^ 23 : ℕ) * 2 ^ (-149 : ℤ) := by
    simp only [realValue, if_pos h]
    rw [abs_mul, abs_mul, abs_pow, abs_neg, abs_one, one_pow, one_mul, abs_of_nonneg (by positivity),
      abs_of_nonneg (by positivity)]
  rw [hvalue]
  calc ((uf.toNat % 2 ^ 23 : ℕ) : ℚ) * 2 ^ (-149 : ℤ)
    _ ≤ 2 ^ 23 * 2 ^ (-149 : ℤ) := by gcongr
    _ < 1 := by norm_num

theorem mantissa_bounds (frac : BitVec 23) :
    (2 : ℚ) ^ 23 ≤ (mantissa frac).toNat ∧ ((mantissa frac).toNat : ℚ) ≤ 2 ^ 24 - 1 := by
  obtain ⟨-, hlow, hhigh, -⟩ := mantissaRestoresLeadingOne frac
  have hhigh : (mantissa frac).toNat + 1 ≤ 2 ^ 24 := hhigh
  have hhigh : ((mantissa frac).toNat : ℚ) + 1 ≤ 2 ^ 24 := by exact_mod_cast hhigh
  exact ⟨by exact_mod_cast hlow, by linarith⟩

theorem abs_realValue_lt_one_of_isSmall {uf : Word} (h : isSmall (exponentOf uf) = true) : |realValue uf| < 1 := by
  by_cases hb : uf.toNat / 2 ^ 23 % 2 ^ 8 = 0
  · exact abs_realValue_denormal_lt hb
  · have he : exponentOf uf - 23 ≤ -24 := by
      rw [isSmall_iff] at h
      omega
    obtain ⟨-, hm⟩ := mantissa_bounds (fracField uf)
    rw [abs_realValue_normalized hb]
    calc ((mantissa (fracField uf)).toNat : ℚ) * 2 ^ (exponentOf uf - 23)
      _ ≤ (2 ^ 24 - 1) * 2 ^ (-24 : ℤ) := by gcongr; norm_num
      _ < 1 := by norm_num

/-- The largest magnitude below the overflow threshold is 2^31 − 128. -/
theorem abs_realValue_le_of_not_isOvf {uf : Word} (h : ¬isOvf (exponentOf uf) = true) :
    |realValue uf| ≤ 2 ^ 31 - 128 := by
  by_cases hb : uf.toNat / 2 ^ 23 % 2 ^ 8 = 0
  · linarith [abs_realValue_denormal_lt hb]
  · have he : exponentOf uf - 23 ≤ 7 := by
      rw [isOvf_iff] at h
      omega
    obtain ⟨-, hm⟩ := mantissa_bounds (fracField uf)
    rw [abs_realValue_normalized hb]
    calc ((mantissa (fracField uf)).toNat : ℚ) * 2 ^ (exponentOf uf - 23)
      _ ≤ (2 ^ 24 - 1) * 2 ^ (7 : ℤ) := by gcongr; norm_num
      _ = 2 ^ 31 - 128 := by norm_num

theorem bexp_ne_zero_of_nonneg {uf : Word} (h : 0 ≤ exponentOf uf) : uf.toNat / 2 ^ 23 % 2 ^ 8 ≠ 0 := by
  rw [exponentOf_eq] at h
  omega

/-- From `e` = 23 on the magnitude is an integer. -/
theorem abs_realValue_of_left {uf : Word} (h : 23 ≤ exponentOf uf) :
    |realValue uf| = ((mantissa (fracField uf)).toNat * 2 ^ (exponentOf uf - 23).toNat : ℕ) := by
  have hscale : (2 : ℚ) ^ (exponentOf uf - 23) = 2 ^ (exponentOf uf - 23).toNat := by
    rw [← zpow_natCast, Int.toNat_of_nonneg (by omega)]
  rw [abs_realValue_normalized (bexp_ne_zero_of_nonneg (by omega)), hscale]
  push_cast
  rfl

/-- Up to `e` = 23 it is the mantissa with `23 − e` binary places. -/
theorem abs_realValue_of_right {uf : Word} (h0 : 0 ≤ exponentOf uf) (h : exponentOf uf ≤ 23) :
    |realValue uf| = (mantissa (fracField uf)).toNat / (2 ^ (23 - exponentOf uf).toNat : ℕ) := by
  have hscale : (2 : ℚ) ^ (exponentOf uf - 23) = (2 ^ (23 - exponentOf uf).toNat)⁻¹ := by
    rw [← zpow_natCast, ← zpow_neg, Int.toNat_of_nonneg (by omega), neg_sub]
  rw [abs_realValue_normalized (bexp_ne_zero_of_nonneg h0), hscale, div_eq_mul_inv]
  push_cast
  rfl

theorem two_pow_31_le_abs_realValue_of_isOvf {uf : Word} (h : isOvf (exponentOf uf) = true) :
    2 ^ 31 ≤ |realValue uf| := by
  rw [isOvf_iff] at h
  have he : 8 ≤ exponentOf uf - 23 := by omega
  obtain ⟨hm, -⟩ := mantissa_bounds (fracField uf)
  rw [abs_realValue_normalized (bexp_ne_zero_of_nonneg (by omega))]
  calc (2 : ℚ) ^ 31
    _ = 2 ^ 23 * 2 ^ (8 : ℤ) := by norm_num
    _ ≤ (mantissa (fracField uf)).toNat * 2 ^ (exponentOf uf - 23) := by gcongr; norm_num

/-- The barrel shifter computes the integer part of the magnitude. -/
theorem floor_abs_realValue_of_used {uf : Word} (h0 : 0 ≤ exponentOf uf) (h30 : exponentOf uf ≤ 30) :
    ⌊|realValue uf|⌋ = (magOf uf).toNat := by
  by_cases hleft : 23 < exponentOf uf
  · rw [abs_realValue_of_left hleft.le, magOf_left hleft h30, Int.floor_natCast]
  · rw [abs_realValue_of_right h0 (by omega), magOf_right h0 (by omega), Rat.floor_natCast_div_natCast]
    exact (Int.natCast_ediv _ _).symm

/-! ### The contract -/

theorem truncate_realValue_of_isSmall {uf : Word} (h : isSmall (exponentOf uf) = true) :
    truncate (realValue uf) = 0 := by
  rw [← abs_eq_zero, abs_truncate, Int.floor_eq_zero_iff]
  exact ⟨abs_nonneg _, abs_realValue_lt_one_of_isSmall h⟩

theorem truncate_realValue_of_used {uf : Word} (h0 : 0 ≤ exponentOf uf) (h30 : exponentOf uf ≤ 30) :
    truncate (realValue uf) = (ftoi uf).toInt := by
  have hmag : truncate |realValue uf| = (magOf uf).toNat := by
    rw [truncate_of_nonneg (abs_nonneg _), floor_abs_realValue_of_used h0 h30]
  rw [ftoi_toInt_of_used h0 h30, realValue_eq_signOf_mul_abs (bexp_ne_zero_of_nonneg h0)]
  rcases signOf_cases uf with hs | hs
  · simp [hs, hmag]
  · simp [hs, hmag, truncate_neg]

/-- The overflow detector is the contract's range test. -/
theorem abs_truncate_lt_iff (uf : Word) : |truncate (realValue uf)| < 2 ^ 31 ↔ ¬isOvf (exponentOf uf) = true := by
  rw [abs_truncate, Int.floor_lt]
  push_cast
  constructor
  · exact fun hlt hovf => absurd (two_pow_31_le_abs_realValue_of_isOvf hovf) hlt.not_ge
  · intro hovf
    linarith [abs_realValue_le_of_not_isOvf hovf]

theorem isFinite_of_not_isOvf {uf : Word} (h : ¬isOvf (exponentOf uf) = true) : IsFinite uf := by
  rw [isOvf_exponentOf_iff] at h
  rw [isFinite_iff]
  omega

theorem ftoi_toInt_of_abs_truncate_lt {uf : Word} (h : |truncate (realValue uf)| < 2 ^ 31) :
    (ftoi uf).toInt = truncate (realValue uf) := by
  rcases exponent_cases uf with hsmall | ⟨h0, h30⟩ | hovf
  · rw [ftoi_of_isSmall hsmall, truncate_realValue_of_isSmall hsmall]; rfl
  · exact (truncate_realValue_of_used h0 h30).symm
  · exact absurd hovf ((abs_truncate_lt_iff uf).1 h)

/-- The port function meets the contract of R101 and R102 on every input. -/
theorem meetsContract_ftoi (uf : Word) : MeetsContract uf (ftoi uf) := by
  refine ⟨fun h => ftoi_toInt_of_abs_truncate_lt h.2, fun h => ftoi_of_isOvf ?_⟩
  by_contra hovf
  exact h ⟨isFinite_of_not_isOvf hovf, (abs_truncate_lt_iff uf).2 hovf⟩

/-- A consistent state honours the contract, since the port function meets it. -/
theorem honoursContract_of_consistent {s : State} (h : Consistent s) : HonoursContract s := fun hs =>
  h hs ▸ meetsContract_ftoi s.uf

/-- Settles O14: a step leaves FTOI of the input wherever it leaves a settled output. -/
theorem stepKeepsContract : Obligations.StepKeepsContract := fun _ _ _ h =>
  honoursContract_of_consistent (consistent_of_step h)

/-- Settles O43: the evaluation gives the port function, which meets the contract. -/
theorem contractOnRealValues : Obligations.ContractOnRealValues := fun uf =>
  ⟨ftoi uf, gives_of_ftoi_eq rfl, meetsContract_ftoi uf⟩

/-- Settles O12: at reset the output shows FTOI of the word 0, and no line is left to present. -/
theorem resetIsConsistent : Obligations.ResetIsConsistent := by
  have hconsistent : Consistent State.reset := fun _ => rfl
  refine ⟨rfl, hconsistent, honoursContract_of_consistent hconsistent, fun _ h => ?_, fun _ h => ?_⟩
  · cases h
  · cases h

/-- Settles O49: in the contract's range the result is the truncation, which rounds toward zero. -/
theorem roundingIsTowardZero : Obligations.RoundingIsTowardZero := by
  intro uf _ hrange
  refine ⟨ftoi uf, gives_of_ftoi_eq rfl, ?_⟩
  rw [ftoi_toInt_of_abs_truncate_lt hrange]
  exact ⟨abs_truncate_le _, abs_sub_truncate_lt_one _, mul_truncate_nonneg _⟩

/-! ### Exact integers (R108) -/

/-- Up to 2^24 every positive integer is a 24-bit mantissa scaled by a power of two. -/
theorem exists_mantissa_scale {n : ℕ} (h1 : 1 ≤ n) (h24 : n ≤ 2 ^ 24) :
    ∃ m k : ℕ, 2 ^ 23 ≤ m ∧ m < 2 ^ 24 ∧ k ≤ 24 ∧ m * 2 ^ k = n * 2 ^ 23 := by
  rcases eq_or_lt_of_le h24 with rfl | hlt
  · exact ⟨2 ^ 23, 24, le_rfl, by norm_num, le_rfl, by norm_num⟩
  · have hlog : Nat.log 2 n ≤ 23 := Nat.lt_succ_iff.1 (Nat.log_lt_of_lt_pow (by omega) hlt)
    have hlow : 2 ^ Nat.log 2 n ≤ n := Nat.pow_log_le_self 2 (by omega)
    have hhigh : n < 2 ^ (Nat.log 2 n + 1) := Nat.lt_pow_succ_log_self (by omega) n
    have hsplit : 2 ^ Nat.log 2 n * 2 ^ (23 - Nat.log 2 n) = 2 ^ 23 := by
      rw [← pow_add, Nat.add_sub_cancel' hlog]
    refine ⟨n * 2 ^ (23 - Nat.log 2 n), Nat.log 2 n, ?_, ?_, by omega, ?_⟩
    · rw [← hsplit]; gcongr
    · calc n * 2 ^ (23 - Nat.log 2 n)
        _ < 2 ^ (Nat.log 2 n + 1) * 2 ^ (23 - Nat.log 2 n) := by gcongr
        _ = 2 ^ 24 := by rw [pow_succ, mul_right_comm, hsplit]; norm_num
    · rw [mul_assoc, mul_comm (2 ^ (23 - _)), hsplit]

/-- Every integer from 1 to 2^24 in magnitude is the value of a finite pattern, with either sign. -/
theorem exists_realValue_eq (s : BitVec 1) {n : ℕ} (h1 : 1 ≤ n) (h24 : n ≤ 2 ^ 24) :
    ∃ uf, IsFinite uf ∧ realValue uf = (-1) ^ s.toNat * n := by
  obtain ⟨m, k, hlow, hhigh, hk, hscale⟩ := exists_mantissa_scale h1 h24
  have hbexp : (BitVec.ofNat 8 (k + 127)).toNat = k + 127 := by rw [BitVec.toNat_ofNat]; omega
  have hmantissa : (mantissa (BitVec.ofNat 23 (m - 2 ^ 23))).toNat = m := by
    rw [mantissa_toNat, BitVec.toNat_ofNat]; omega
  have hvalue : (m : ℚ) * 2 ^ ((k : ℤ) - 23) = n := by
    have hscale : (m : ℚ) * 2 ^ k = n * 2 ^ 23 := by exact_mod_cast hscale
    rw [zpow_sub₀ two_ne_zero, zpow_natCast, ← mul_div_assoc, hscale]
    norm_num
  refine ⟨packFields s (BitVec.ofNat 8 (k + 127)) (BitVec.ofNat 23 (m - 2 ^ 23)), ?_, ?_⟩
  · rw [isFinite_iff, ← bexpField_toNat, bexpField_packFields, hbexp]; omega
  · rw [realValue_normalized, signOf, signField_packFields, fracField_packFields, hmantissa, exponentOf,
      bexpField_packFields, unbiasedExponent, hbexp]
    · push_cast
      rw [add_sub_cancel_right, hvalue]
    · rw [← bexpField_toNat, bexpField_packFields, hbexp]; omega

/-- Settles O48: an integer is its own truncation, so the contract gives it back; and small integers have patterns. -/
theorem exactIntegersRoundTrip : Obligations.ExactIntegersRoundTrip := by
  refine ⟨fun k uf hk _ hvalue => gives_of_ftoi_eq ?_, fun k hk => ?_⟩
  · have htruncate : truncate (realValue uf) = k := by rw [hvalue, truncate_intCast]
    have hresult : (ftoi uf).toInt = k := by
      rw [ftoi_toInt_of_abs_truncate_lt (htruncate ▸ hk), htruncate]
    rw [← hresult, BitVec.ofInt_toInt]
  · have hk : k.natAbs ≤ 2 ^ 24 := by
      rw [Int.abs_eq_natAbs] at hk
      exact_mod_cast hk
    rcases lt_trichotomy k 0 with hneg | rfl | hpos
    · obtain ⟨uf, hfinite, hvalue⟩ := exists_realValue_eq 1#1 (n := k.natAbs) (by omega) hk
      refine ⟨uf, hfinite, ?_⟩
      rw [hvalue, Nat.cast_natAbs, abs_of_neg hneg]
      simp
    · exact ⟨0#32, (isFinite_iff _).2 (by decide), by simp [realValue]⟩
    · obtain ⟨uf, hfinite, hvalue⟩ := exists_realValue_eq 0#1 (n := k.natAbs) (by omega) hk
      refine ⟨uf, hfinite, ?_⟩
      rw [hvalue, Nat.cast_natAbs, abs_of_pos hpos]
      simp

/-! ### The minimum integer and the sentinel (R105, R106) -/

theorem gives_minimum : Gives 0xCF000000#32 0x80000000#32 := overflowGivesSentinel.2.2

theorem realValue_minimumInteger : realValue 0xCF000000#32 = -2 ^ 31 := by
  norm_num [realValue, BitVec.toNat_ofNat]

theorem realValue_two_pow_31_pattern : realValue 0x4F000000#32 = 2 ^ 31 := by
  norm_num [realValue, BitVec.toNat_ofNat]

theorem truncate_realValue_minimumInteger : truncate (realValue 0xCF000000#32) = -2 ^ 31 := by
  rw [realValue_minimumInteger, ← truncate_intCast (-2 ^ 31)]
  norm_num

theorem truncate_realValue_two_pow_31_pattern : truncate (realValue 0x4F000000#32) = 2 ^ 31 := by
  rw [realValue_two_pow_31_pattern, ← truncate_intCast (2 ^ 31)]
  norm_num

/-- From 2^31 on the values are 256 apart or more. -/
theorem exists_abs_realValue_eq_mul_of_isOvf {uf : Word} (h : isOvf (exponentOf uf) = true) :
    ∃ t : ℕ, |realValue uf| = (256 * t : ℕ) := by
  rw [isOvf_iff] at h
  refine ⟨(mantissa (fracField uf)).toNat * 2 ^ ((exponentOf uf - 23).toNat - 8), ?_⟩
  have hsplit : 2 ^ (exponentOf uf - 23).toNat = 256 * 2 ^ ((exponentOf uf - 23).toNat - 8) := by
    rw [show 256 = 2 ^ 8 by norm_num, ← pow_add]
    congr 1
    omega
  rw [abs_realValue_of_left (by omega), hsplit, mul_left_comm]

/-- A magnitude of exactly 2^31 fixes the exponent and the mantissa. -/
theorem fields_of_abs_realValue_eq {uf : Word} (hovf : isOvf (exponentOf uf) = true)
    (h : ⌊|realValue uf|⌋ = 2 ^ 31) : exponentOf uf = 31 ∧ (mantissa (fracField uf)).toNat = 2 ^ 23 := by
  rw [isOvf_iff] at hovf
  obtain ⟨-, hlow, -, -⟩ := mantissaRestoresLeadingOne (fracField uf)
  have hproduct : (mantissa (fracField uf)).toNat * 2 ^ (exponentOf uf - 23).toNat = 2 ^ 31 := by
    rw [abs_realValue_of_left (by omega), Int.floor_natCast] at h
    exact_mod_cast h
  have hamount : (exponentOf uf - 23).toNat = 8 := by
    by_contra hne
    have hpow : 2 ^ 9 ≤ 2 ^ (exponentOf uf - 23).toNat := Nat.pow_le_pow_right (by omega) (by omega)
    have hlarge := Nat.mul_le_mul hlow hpow
    omega
  rw [hamount] at hproduct
  omega

/-- Only the pattern of −2^31 itself truncates to it, since values beside it are more than 1 away. -/
theorem eq_minimum_of_truncate {uf : Word} (h : truncate (realValue uf) = -2 ^ 31) : uf = 0xCF000000#32 := by
  have habs : |truncate (realValue uf)| = 2 ^ 31 := by rw [h]; norm_num
  have hovf : isOvf (exponentOf uf) = true := by
    by_contra hovf
    exact absurd habs ((abs_truncate_lt_iff uf).2 hovf).ne
  obtain ⟨he, hm⟩ := fields_of_abs_realValue_eq hovf (abs_truncate _ ▸ habs)
  have hsign : ¬uf.toNat < 2 ^ 31 := by
    intro hpositive
    have hvalue := realValue_eq_signOf_mul_abs (bexp_ne_zero_of_nonneg (uf := uf) (by omega))
    rw [signOf_eq, if_pos hpositive, Int.cast_one, one_mul] at hvalue
    have hnonneg : 0 ≤ realValue uf := by
      rw [hvalue]
      exact abs_nonneg _
    have hfloor := Int.floor_nonneg.2 hnonneg
    rw [truncate_of_nonneg hnonneg] at h
    omega
  apply BitVec.eq_of_toNat_eq
  have hlt := uf.isLt
  rw [exponentOf_eq] at he
  rw [mantissa_toNat, fracField_toNat] at hm
  rw [BitVec.toNat_ofNat]
  omega

/-- Settles O45: values from 2^31 on in magnitude are multiples of 256, and the others are at most 2^31 − 128. -/
theorem minimumIntegerIsExact : Obligations.MinimumIntegerIsExact := by
  refine ⟨gives_minimum, realValue_minimumInteger, by decide, fun uf _ => eq_minimum_of_truncate, fun uf _ =>
    ⟨fun ⟨hlow, hhigh⟩ => ?_, fun ⟨hlow, hhigh⟩ => ?_⟩⟩
  · have habs : |realValue uf| = -realValue uf := abs_of_neg (by linarith)
    by_cases hovf : isOvf (exponentOf uf) = true
    · obtain ⟨t, ht⟩ := exists_abs_realValue_eq_mul_of_isOvf hovf
      have hbelow : 2 ^ 31 < 256 * t := by exact_mod_cast (by linarith : (2 : ℚ) ^ 31 < (256 * t : ℕ))
      have habove : 256 * t < 2 ^ 31 + 256 := by
        exact_mod_cast (by linarith : ((256 * t : ℕ) : ℚ) < 2 ^ 31 + 256)
      omega
    · linarith [abs_realValue_le_of_not_isOvf hovf]
  · have habs : |realValue uf| = -realValue uf := abs_of_neg (by linarith)
    by_cases hovf : isOvf (exponentOf uf) = true
    · linarith [two_pow_31_le_abs_realValue_of_isOvf hovf]
    · linarith [abs_realValue_le_of_not_isOvf hovf]

/-- Settles O46: −2^31 is representable and 2^31 is not, and they have one output. -/
theorem sentinelIsAmbiguous : Obligations.SentinelIsAmbiguous := by
  have hovf (uf : Word) (h : isOvf (exponentOf uf) = true) : Gives uf 0x80000000#32 :=
    (overflowGivesSentinel.1 uf).2 h
  have htwo : Gives 0x4F000000#32 0x80000000#32 := hovf _ (by decide)
  refine ⟨hovf _ (by decide), hovf _ (by decide), htwo, gives_minimum, realValue_two_pow_31_pattern, ?_⟩
  rintro ⟨f, hf⟩
  have htrue : f 0x80000000#32 = true := (hf _ _ gives_minimum).2
    ⟨(isFinite_iff _).2 (by decide), by rw [truncate_realValue_minimumInteger]; norm_num⟩
  obtain ⟨-, -, hlt⟩ := (hf _ _ htwo).1 htrue
  rw [truncate_realValue_two_pow_31_pattern] at hlt
  exact lt_irrefl _ hlt

end Sys2Proof.Safety
